-- ==== Sys2Proof/Config.lean ====
section
/-! DEFINITION. The constants the spec fixes (00_scope.md R9) and the widths an implementation fixes
(00_scope.md R10, with the decisions of 92_eei_decisions.md that give their values). -/

namespace Sys2Proof.Config

/-- R9 `SLOT_BITS`: packed bits per slot. -/
@[simp] abbrev slotBits : Nat := 2

/-- R9 `SLOT_MAX`: the largest slot value. -/
@[simp] abbrev slotMax : Nat := 3

/-- R9 `N_DAILY`: slots of a daily schedule. -/
@[simp] abbrev nDaily : Nat := 48

/-- R9 `N_DBYTES`: bytes of a packed daily schedule. -/
@[simp] abbrev nDBytes : Nat := 12

/-- R9 `SLOTS_PER_BYTE`: byte `i` holds slots `4i` to `4i+3`. -/
@[simp] abbrev slotsPerByte : Nat := 4

/-- R9 `BYTE_BITS`. -/
@[simp] abbrev byteBits : Nat := 8

/-- R9 `N_WEEKLY`: slots of a weekly schedule. -/
@[simp] abbrev nWeekly : Nat := 7

/-- R9 `WEEKLY_BITS`: significant bits of the packed weekly integer. -/
@[simp] abbrev weeklyBits : Nat := 14

/-- R10 `ELEM_W` (decision D5): bits of one operand or result element at the ports. The types of `Word.lean`
write the widths 2 and 8 as numerals; `Tests/Slice0.lean` holds them against these names. -/
@[simp] abbrev elemW : Nat := 8

/-- R22: element lanes of the command channel (decision D4). -/
@[simp] abbrev nLanes : Nat := 48

/-- R22: width of `cmd_len`; R10 `LEN_MAX` = 127 is the largest length it can state. -/
@[simp] abbrev lenBits : Nat := 7

/-- R52: width of the command header `CMDH`. -/
@[simp] abbrev headerBits : Nat := 9

/-- The number of unused bits of the weekly word at the ports, bits `W_WORD`-1..14 (R47): the part of the
parameter `W_WORD` that an implementation chooses (R10, decision D6, U3). It has no body, so a proof holds
whatever it is (log entry 1). -/
opaque unusedBits : Nat

/-- R10 `W_WORD`: the width of `cmd_word` and `rsp_word`, a parameter. It is at least 14 by the way it is
written: the unused bits and the fourteen significant ones (R47, R77). -/
abbrev wWord : Nat := unusedBits + weeklyBits

/-- The default of `W_WORD` that R10 names, and the width the spec's examples are written at. The machine
does not use it. -/
@[simp] abbrev wWordDefault : Nat := 16

end Sys2Proof.Config
end

