-- ==== Sys2Proof/Word.lean ====
section
/-! DEFINITION. The words of the hardware: a packed byte, a slot, the weekly word, the element lanes. -/

namespace Sys2Proof

/-- One byte of a packed daily schedule, or one 8-bit element of a port (R44, R53, R55). -/
abbrev Byte := BitVec 8

/-- A slot value: an opaque two-bit quantity, 0 to 3 (R42). -/
abbrev Slot := BitVec 2

/-- The packed weekly integer as the ports carry it, `W_WORD` bits in the layout of R47: the unused bits
`W_WORD`-1..14 above the seven fields in bits 13..0 (R22, R23). `Word.bits` is the whole word. -/
structure Word where
  unused : BitVec Config.unusedBits
  days : BitVec 14
deriving DecidableEq, Repr

/-- The operand element ports `cmd_elem[0..47]` (R22). -/
abbrev Lanes := Vector Byte Config.nLanes

end Sys2Proof
end

