-- ==== Sys2Proof/Syntax.lean ====
section
/-! DEFINITION. The instructions: one constructor per row of the opcode table (R3, R50, R51). -/

namespace Sys2Proof

/-- A command's header: which of the four operations, and the stated number of elements of its operand
sequence (`CMDH`, R52). The operand's elements and word are not part of the header: they stand on the
ports `cmd_elem` and `cmd_word`, which the State holds. -/
inductive Instr where
  /-- `DDEC`, the document's `decodeBytes` (R60). -/
  | ddec (len : Nat)
  /-- `DENC`, the document's `encodeBytes` (R64). -/
  | denc (len : Nat)
  /-- `WDEC`, the document's weekly `decode` (R70); the header has a length field, which `WDEC`
  ignores (R25, R73). -/
  | wdec (len : Nat)
  /-- `WENC`, the document's weekly `encode` (R74). -/
  | wenc (len : Nat)
deriving DecidableEq, Repr

namespace Instr

/-- The header's `len` field (R52). -/
def len : Instr → Nat
  | .ddec n => n
  | .denc n => n
  | .wdec n => n
  | .wenc n => n

/-- The operation code `cmd_op[1:0]` (R51). -/
def opcode : Instr → Nat
  | .ddec _ => 0b00
  | .denc _ => 0b01
  | .wdec _ => 0b10
  | .wenc _ => 0b11

end Instr

end Sys2Proof
end

