-- ==== Sys2Proof/WellFormed.lean ====
section
/-! DEFINITION. Which instructions a command header can state. -/

namespace Sys2Proof

/-- An instruction is well formed when the seven-bit `cmd_len` can state its length: 0 to 127 (R10
`LEN_MAX`, R22, R52). Every such length is a legal encoding of every operation: a length that is wrong
for the operation is answered with `ShapeError`, it is not an illegal instruction (R57, R58). -/
abbrev Instr.WellFormed (i : Instr) : Prop :=
  i.len < 2 ^ Config.lenBits

end Sys2Proof
end

