-- ==== Sys2Proof/Decode.lean ====
section
/-! DEFINITION. The command header `CMDH = {cmd_len[6:0], cmd_op[1:0]}` (R52) read and written. -/

namespace Sys2Proof

/-- Why a number is not a command header. -/
inductive DecodeError where
  /-- A bit above bit 8 is set: `CMDH` has nine bits (R52). No other number is refused, since all four
  operation codes are used (R51) and every length can be stated (R57). -/
  | widerThanHeader
deriving DecidableEq, Repr

/-- `cmd_op[1:0]`, bits 1..0 of the header (R52). -/
def headerOp (w : Nat) : BitVec 2 :=
  BitVec.ofNat 2 w

/-- `cmd_len[6:0]`, bits 8..2 of the header (R52), as the number it states. -/
def headerLen (w : Nat) : BitVec 7 :=
  BitVec.ofNat 7 (w >>> 2)

/-- The operation an operation code selects: bit 1 is the schedule shape (0 daily, 1 weekly), bit 0 the
direction (0 decode, 1 encode) (R51). -/
def decodeOp (op : BitVec 2) (len : Nat) : Instr :=
  match op.getLsbD 1, op.getLsbD 0 with
  | false, false => .ddec len
  | false, true => .denc len
  | true, false => .wdec len
  | true, true => .wenc len

/-- Read a command header. Total: every nine-bit header is an instruction (R51, R57, R58), and a wider
number is rejected by name. -/
def decode (w : Nat) : Except DecodeError Instr :=
  if w < 2 ^ Config.headerBits then .ok (decodeOp (headerOp w) (headerLen w).toNat)
  else .error .widerThanHeader

/-- Write a command header: the length above the two bits of the operation code (R51, R52). -/
def encode (i : Instr) : Nat :=
  i.len <<< 2 ||| i.opcode

/-- What the decoder reads from an instruction whose bits are `w`, numbered as the opcode table numbers
them. The header is one word of nine bits, so there is no order of words or bytes to undo (R52, R40). -/
def decodeTableWord (_nbits w : Nat) : Option Instr :=
  match decode w with
  | .ok i => some i
  | .error _ => none

end Sys2Proof
end

