-- ==== Sys2Proof/Machine/State.lean ====
section
/-! DEFINITION. The state: the ports, the handshake state (R26), and the model's own fields (the host's
plan, what the host has received, the implementation's free timing). The block itself holds no
architectural state (R13 to R20): no register, program counter, flag, control register or memory. -/

namespace Sys2Proof.Machine

open Sys2Proof

/-- The values on the command ports in one cycle (R22, R120). -/
structure Command where
  /-- `cmd_op[1:0]`. -/
  op : BitVec 2
  /-- `cmd_len[6:0]`. -/
  len : BitVec 7
  /-- `cmd_elem[0..47]`. -/
  elem : Lanes
  /-- `cmd_word`. -/
  word : Word
deriving DecidableEq, Repr

/-- The outcome codes of `rsp_status` (R54). The code `0b11` is never produced, so it has no
constructor (U11). -/
inductive Status where
  | ok
  | shapeError
  | rangeError
deriving DecidableEq, Repr

/-- What the response ports define when `rsp_valid` is 1 (R23, R54, R55). A data output that the outcome
does not define has no value here, as R25 asks: `elem` holds `rsp_elem[j]` for `j < rsp_len` only, and
`word` is present only for a successful `WENC`. `rsp_len` is the number of valid elements. -/
structure Response where
  /-- `rsp_status`. -/
  status : Status
  /-- `rsp_elem[0 .. rsp_len-1]`. -/
  elem : List Byte
  /-- `rsp_word`, where the outcome defines it. -/
  word : Option Word
deriving DecidableEq, Repr

/-- An accepted command, as it was on the ports when it was accepted, with its outcome (R26). The command
part is the model's own record: no step reads it, and it lets a statement say whose outcome a response
is. -/
structure Transaction where
  instr : Instr
  elem : Lanes
  word : Word
  rsp : Response
deriving DecidableEq, Repr

/-- What the host drives besides the command channel in one cycle: `rst` (R21) and `rsp_ready` (R23). -/
structure HostCycle where
  rst : Bool
  rspReady : Bool
deriving DecidableEq, Repr

/-- What the implementation holds back at one clock edge: the spec leaves `LATENCY`, the rise of
`cmd_ready` and the number of commands in flight open (R10, R26, R122, U7, U14). -/
structure Hold where
  /-- `cmd_ready` stays 0 in the next cycle. -/
  cmd : Bool
  /-- No new response is presented in the next cycle. -/
  rsp : Bool
deriving DecidableEq, Repr

/-- The machine between two rising edges of `clk`. -/
structure State where
  /-- Input port `rst` (R21). -/
  rst : Bool
  /-- Input port `cmd_valid` (R22). -/
  cmdValid : Bool
  /-- Output port `cmd_ready` (R22). -/
  cmdReady : Bool
  /-- Input ports `cmd_op`, `cmd_len`, `cmd_elem`, `cmd_word` (R22). -/
  cmd : Command
  /-- Output ports `rsp_valid` (it is 1 when a response stands here), `rsp_status`, `rsp_len`, `rsp_elem`
  and `rsp_word` (R23). While `rsp_valid` is 0 the others are unspecified and have no value (R25, R27). -/
  rsp : Option Transaction
  /-- Input port `rsp_ready` (R23). -/
  rspReady : Bool
  /-- Handshake state (R26): the accepted commands whose response is not yet presented, oldest first. -/
  pending : List Transaction
  /-- The model's own: the responses transferred to the host, oldest first (log entry 5). -/
  received : List Transaction
  /-- The model's own: what the host will put on the command channel, in order; `none` is one cycle
  without a command (log entry 6). -/
  hostCmds : List (Option Command)
  /-- The model's own: `rst` and `rsp_ready` in the coming cycles (log entry 6). -/
  hostCycles : List HostCycle
  /-- The model's own free value: what the implementation holds back at the coming edges (log entry 4). -/
  holds : List Hold
deriving DecidableEq, Repr

/-- Machine faults: there are none. The two errors of the spec are ordinary outcomes, delivered in a
response (R99, R103, R124), and the block never hangs (R123). Safe: nothing raises one. -/
inductive Fault
deriving DecidableEq, Repr

/-- Why a step gives no meaning. -/
inductive Refusal where
  /-- Raised by an arm of `exec` for an instruction that has no meaning yet; no arm does so. Safe. -/
  | notModelled (mnemonic : String)
  /-- Raised by `step` if the header on the command ports were no header of R52. The ports are nine bits
  wide, so no state raises it. Safe. -/
  | notAHeader
deriving DecidableEq, Repr

/-- The command ports with every input at 0. DESIGN CHOICE (log entry 2): the host drives these, and the
spec gives an input no reset value. -/
def Command.zero : Command where
  op := 0
  len := 0
  elem := Vector.replicate Config.nLanes 0
  word := { unused := 0, days := 0 }

/-- The machine right after reset (R27, R115): no command in flight, `rsp_valid` = 0. The host's inputs,
`cmd_ready` and the model's own fields have the values of log entries 2 to 6. -/
def State.reset : State where
  rst := false
  cmdValid := false
  cmdReady := false
  cmd := Command.zero
  rsp := none
  rspReady := false
  pending := []
  received := []
  hostCmds := []
  hostCycles := []
  holds := []

end Sys2Proof.Machine
end

