-- ==== Sys2Proof/Machine/Operands.lean ====
section
/-! DEFINITION. Reading operands and packing fields at the ports: the element and word formats of R53 and
R55, field extraction (R48) and insertion (R49) as bit slices. -/

/-- A weekly word as the `W_WORD`-bit integer it is (R47). -/
def Sys2Proof.Word.bits (w : Sys2Proof.Word) : BitVec Sys2Proof.Config.wWord :=
  w.unused ++ w.days

/-- The weekly word that carries a natural number: its low `W_WORD` bits (R47, R55). -/
def Sys2Proof.Word.ofNat (n : Nat) : Sys2Proof.Word where
  unused := BitVec.ofNat _ (n >>> 14)
  days := BitVec.ofNat 14 n

namespace Sys2Proof.Machine

open Sys2Proof

/-- `cmd_elem[j]` (R22). There are 48 lanes and no meaning reads one at or beyond 48 (R93). -/
def lane (elem : Lanes) (j : Nat) : Byte :=
  elem.toList.getD j 0

/-- The field at bit offset `off`, `v[off+1:off]` (R48). -/
def field {w : Nat} (v : BitVec w) (off : Nat) : Slot :=
  v.extractLsb' off 2

/-- A slot value on a result element: zero extended (R48, R55). -/
def slotByte (s : Slot) : Byte :=
  s.setWidth 8

/-- The verdict on a slot element: in range exactly when its bits 7..2 are zero (R53). -/
def elemInRange (e : Byte) : Bool :=
  e.extractLsb' 2 6 == 0#6

/-- The value of an in-range slot element: its bits 1..0 (R53). -/
def elemSlot (e : Byte) : Slot :=
  e.extractLsb' 0 2

/-- Byte `i` of a `DENC` result, assembled from bits 1..0 of four elements (R68). -/
def packByte (elem : Lanes) (i : Nat) : Byte :=
  elemSlot (lane elem (4 * i + 3)) ++ elemSlot (lane elem (4 * i + 2))
    ++ elemSlot (lane elem (4 * i + 1)) ++ elemSlot (lane elem (4 * i))

/-- The fourteen significant bits of a `WENC` result, assembled from bits 1..0 of seven elements (R78). -/
def packWeek (elem : Lanes) : BitVec 14 :=
  elemSlot (lane elem 6) ++ elemSlot (lane elem 5) ++ elemSlot (lane elem 4) ++ elemSlot (lane elem 3)
    ++ elemSlot (lane elem 2) ++ elemSlot (lane elem 1) ++ elemSlot (lane elem 0)

/-- The slots of a packed daily schedule on the element ports, each on a result element: slot `k` from
byte `k/4` at offset `2*(k mod 4)` (R45, R60, R63). -/
def dailySlots (elem : Lanes) : List Byte :=
  (List.range Config.nDaily).map fun k => slotByte (field (lane elem (k / 4)) (2 * (k % 4)))

/-- The bytes of a packed daily schedule whose slots are on the element ports (R68). -/
def dailyBytes (elem : Lanes) : List Byte :=
  (List.range Config.nDBytes).map (packByte elem)

/-- The slots of a packed weekly word of any width, each on a result element: day `d` from offset `2d`
(R47, R70, R73). -/
def weeklySlots {w : Nat} (word : BitVec w) : List Byte :=
  (List.range Config.nWeekly).map fun d => slotByte (field word (2 * d))

/-- The packed weekly word, as an integer of any width, whose slots are on the element ports; bits 14 and
above are zero (R78). -/
def weeklyWord (w : Nat) (elem : Lanes) : BitVec w :=
  (packWeek elem).setWidth w

/-- The packed weekly word whose slots are on the element ports, on the port `rsp_word`: the unused bits are
zero (R55, R56, R77, R78). -/
def weekWord (elem : Lanes) : Word where
  unused := 0
  days := packWeek elem

end Sys2Proof.Machine
end

