-- ==== Sys2Proof/Machine/Transaction.lean ====
section
/-! DEFINITION. The transaction view (R11, R12): each operation as a total function from an operand to one
outcome, over sequences of any length and integers of any value. It is the normative content of the spec;
the ports of the machine are held against it in `Machine/Views.lean`. -/

namespace Sys2Proof.Machine.Tx

open Sys2Proof

/-- The two error kinds (R96, R97). An error carries its kind and nothing else (R101). -/
inductive ErrorKind where
  /-- The operand sequence has the wrong length (R96). -/
  | shapeError
  /-- A slot value presented to an encode operation is outside [0,3] (R97). -/
  | rangeError
deriving DecidableEq, Repr

/-- The outcome of one transaction: a result or an error, never both (R11, R102). -/
inductive Result (α : Type) where
  | ok (r : α)
  | error (k : ErrorKind)
deriving DecidableEq, Repr

/-- The field at bit offset `off`: shift right by the offset, then mask with `0b11` (R48). -/
def fieldAt (v off : Nat) : Nat :=
  (v >>> off) &&& 0b11

/-- The range test of an encode operand element, on mathematical integers (R53, R66, R76). -/
def inRange (v : Int) : Bool :=
  decide (0 ≤ v) && decide (v ≤ (Config.slotMax : Int))

/-- Element `k` of an encode operand that has passed its checks, as a natural number. -/
def slotAt (opnd : List Int) (k : Nat) : Nat :=
  (opnd.getD k 0).toNat

/-- The bytes of a packed daily schedule that holds the slots `opnd`: byte `i` is the OR of slots `4i` to
`4i+3` shifted left by 0, 2, 4 and 6 (R49, R64). -/
def packDaily (opnd : List Int) : List Byte :=
  (List.range Config.nDBytes).map fun i =>
    BitVec.ofNat 8
      (slotAt opnd (4 * i) ||| slotAt opnd (4 * i + 1) <<< 2 ||| slotAt opnd (4 * i + 2) <<< 4
        ||| slotAt opnd (4 * i + 3) <<< 6)

/-- The packed weekly integer that holds the slots `opnd`: the OR of slot `d` shifted left by `2d`, for
`d` in 0..6 (R49, R74). -/
def packWeekly (opnd : List Int) : Nat :=
  (List.range Config.nWeekly).foldl (fun v d => v ||| slotAt opnd d <<< (2 * d)) 0

/-- `DDEC` (R60 to R62): the length check, then slot `k` is the field of byte `k/4` at offset
`2*(k mod 4)`. There is no range check. -/
def ddec (opnd : List Byte) : Result (List Int) :=
  if opnd.length ≠ Config.nDBytes then .error .shapeError
  else .ok ((List.range Config.nDaily).map fun k =>
    (fieldAt (opnd.getD (k / 4) 0).toNat (2 * (k % 4)) : Int))

/-- `DENC` (R64 to R66): the length check, then the range check of all 48 elements (R100), then the
packing. -/
def denc (opnd : List Int) : Result (List Byte) :=
  if opnd.length ≠ Config.nDaily then .error .shapeError
  else if !opnd.all inRange then .error .rangeError
  else .ok (packDaily opnd)

/-- `WDEC` (R70 to R72): slot `d` is the field at offset `2d`. No check and no error; bits 14 and above
are never read. The operand is a natural number, so the function serves every `W_WORD` (R73). -/
def wdec (opnd : Nat) : Result (List Int) :=
  .ok ((List.range Config.nWeekly).map fun d => (fieldAt opnd (2 * d) : Int))

/-- `WENC` (R74 to R76): the length check, then the range check of all 7 elements (R100), then the
packing. -/
def wenc (opnd : List Int) : Result Nat :=
  if opnd.length ≠ Config.nWeekly then .error .shapeError
  else if !opnd.all inRange then .error .rangeError
  else .ok (packWeekly opnd)

/-- A command of the transaction view: an operation and its operand. An operand outside the operation's
type (a byte above 255, a negative or fractional word) cannot be written here (R112). -/
inductive Command where
  | ddec (opnd : List Byte)
  | denc (opnd : List Int)
  | wdec (opnd : Nat)
  | wenc (opnd : List Int)
deriving DecidableEq, Repr

/-- What an `OK` outcome carries: slot values, bytes, or the weekly integer (R3, R50). -/
inductive Value where
  | slots (s : List Int)
  | bytes (b : List Byte)
  | word (n : Nat)
deriving DecidableEq, Repr

/-- An outcome's result under a name of its kind. -/
def Result.map {α β : Type} (f : α → β) : Result α → Result β
  | .ok r => .ok (f r)
  | .error k => .error k

/-- The outcome of one transaction: a function of the operation and the operand alone (R12, R95). -/
def outcome : Command → Result Value
  | .ddec b => (ddec b).map .slots
  | .denc s => (denc s).map .bytes
  | .wdec n => (wdec n).map .slots
  | .wenc s => (wenc s).map .word

/-- A well-formed slot sequence of `n` slots: the exact length and every element in [0,3] (the spec's
glossary; R43, R46). -/
abbrev WellFormedSlots (n : Nat) (s : List Int) : Prop :=
  s.length = n ∧ ∀ v ∈ s, 0 ≤ v ∧ v ≤ 3

/-- The derived view of a packed daily schedule as one number, byte 0 least significant (R31, decision
D13). No operation uses it. -/
def joined (b : List Byte) : Nat :=
  b.foldr (fun x v => x.toNat + 2 ^ 8 * v) 0

end Sys2Proof.Machine.Tx
end

