-- ==== Sys2Proof/Machine/Flags.lean ====
section
/-! DEFINITION. There are no flags (R16): the only status is the outcome of the transaction, returned with
it. This file computes it: the two checks and their priority, and the status codes of the ports. -/

namespace Sys2Proof.Machine

open Sys2Proof

/-- The status of an error kind (R54). -/
def Tx.ErrorKind.status : Tx.ErrorKind → Status
  | .shapeError => .shapeError
  | .rangeError => .rangeError

/-- `rsp_status[1:0]` (R54). -/
def Status.code : Status → BitVec 2
  | .ok => 0b00
  | .shapeError => 0b01
  | .rangeError => 0b10

/-- The host's reading of `rsp_status`; `0b11` is never produced and stands for nothing (R54, U11). -/
def Status.ofCode (c : BitVec 2) : Option Status :=
  if c = 0b00 then some .ok
  else if c = 0b01 then some .shapeError
  else if c = 0b10 then some .rangeError
  else none

/-- `rsp_len[5:0]`: the number of valid elements (R23). -/
def Response.len (r : Response) : BitVec 6 :=
  BitVec.ofNat 6 r.elem.length

/-- The response header `RSPH = {rsp_len[5:0], rsp_status[1:0]}` (R54). -/
def Response.header (r : Response) : BitVec 8 :=
  r.len ++ r.status.code

/-- The length check: the operand sequence has exactly `n` elements (R32, R96). -/
def lengthCheck (n len : Nat) : Option Tx.ErrorKind :=
  if len = n then none else some .shapeError

/-- The range check: the first `n` elements are all in range (R53, R97). -/
def rangeCheck (n : Nat) (elem : Lanes) : Option Tx.ErrorKind :=
  if (List.range n).all fun j => elemInRange (lane elem j) then none else some .rangeError

/-- The checks of an encode operation over `n` slots: the length first, and no element is examined when it
fails (R100, decision D9). -/
def encodeCheck (n len : Nat) (elem : Lanes) : Option Tx.ErrorKind :=
  match lengthCheck n len with
  | some k => some k
  | none => rangeCheck n elem

end Sys2Proof.Machine
end

