-- ==== Sys2Proof/Machine/Ops.lean ====
section
/-! DEFINITION. The operations over the state that the meanings and the step share: raising an error, giving
a command its answer, and the parts of one clock edge. -/

namespace Sys2Proof.Machine

open Sys2Proof

/-- Raising an error, the whole of taking an exception on this hardware (R103): the outcome of that kind,
with no result and no partial result (R99, R101, R102). No state is saved and none changes, and there is
no return from it: the next command runs like any other (R105). -/
def Response.raise (k : Tx.ErrorKind) : Response where
  status := k.status
  elem := []
  word := none

/-- A successful outcome whose result is a sequence of elements (`DDEC`, `DENC`, `WDEC`; R23). -/
def Response.ofElems (e : List Byte) : Response where
  status := .ok
  elem := e
  word := none

/-- A successful outcome whose result is the weekly word (`WENC`; R23: `rsp_len` is 0). -/
def Response.ofWord (w : Word) : Response where
  status := .ok
  elem := []
  word := some w

/-- Give the command on the ports the answer `r`: it joins the commands in flight, behind those accepted
before it (R24, R26). -/
def State.answer (i : Instr) (r : Response) (s : State) : State :=
  { s with pending := s.pending ++ [{ instr := i, elem := s.cmd.elem, word := s.cmd.word, rsp := r }] }

/-- The commands in flight, oldest first: accepted, and their response not yet transferred (R26). -/
def State.inFlight (s : State) : List Transaction :=
  s.rsp.toList ++ s.pending

/-- Output port `rsp_valid` (R23). -/
def State.rspValid (s : State) : Bool :=
  s.rsp.isSome

/-- A command is transferred at this edge: `cmd_valid` and `cmd_ready` are both 1 (R22), and no command is
accepted while `rst` is 1 (R115). -/
def State.accepts (s : State) : Bool :=
  !s.rst && s.cmdValid && s.cmdReady

/-- A response is transferred at this edge: `rsp_valid` and `rsp_ready` are both 1 (R23). At an edge with
`rst` at 1 it is dropped instead (R115; log entry 9). -/
def State.delivers (s : State) : Bool :=
  !s.rst && s.rspValid && s.rspReady

/-- The header on the command ports (R52). -/
def State.header (s : State) : Nat :=
  s.cmd.len.toNat <<< 2 ||| s.cmd.op.toNat

/-- The response side of an edge: the host takes the response presented, if it accepts one (R23). -/
def State.takeResponse (s : State) : State :=
  if s.delivers then { s with received := s.received ++ s.rsp.toList, rsp := none } else s

/-- An edge with `rst` at 1: every command in flight is dropped without a response, and `rsp_valid` goes
to 0 (R115, decision D25). A command accepted at the edge before is always among them: DESIGN CHOICE, log
entry 7. -/
def State.dropInFlight (s : State) : State :=
  { s with rsp := none, pending := [] }

/-- What the implementation holds back at this edge (log entry 4). -/
def State.hold (s : State) : Hold :=
  s.holds.headD { cmd := false, rsp := false }

/-- The outputs of the next cycle. A response that is presented and not taken stays as it is (R120);
otherwise the oldest command in flight may present its own (R24), unless the implementation holds it back
(R122). `cmd_ready` is the implementation's (R26, R27). -/
def State.present (s : State) : State :=
  let t := { s with cmdReady := !s.hold.cmd, holds := s.holds.tail }
  match s.rsp, s.pending with
  | none, x :: xs => if s.hold.rsp then t else { t with rsp := some x, pending := xs }
  | _, _ => t

/-- The command ports of the next cycle. A command presented and not accepted stays, unchanged (R120);
otherwise the host puts its next item on the channel. `accepted` says whether this edge transferred the
command. -/
def State.driveCommand (accepted : Bool) (s : State) : State :=
  if s.cmdValid && !accepted then s
  else
    match s.hostCmds with
    | [] => { s with cmdValid := false }
    | none :: rest => { s with cmdValid := false, hostCmds := rest }
    | some c :: rest => { s with cmdValid := true, cmd := c, hostCmds := rest }

/-- `rst` and `rsp_ready` in the next cycle. A host whose plan has ended leaves `rst` at 0 and accepts
every response, as it owes the block (R117, R123; log entry 6). -/
def State.driveCycle (s : State) : State :=
  match s.hostCycles with
  | [] => { s with rst := false, rspReady := true }
  | c :: rest => { s with rst := c.rst, rspReady := c.rspReady, hostCycles := rest }

/-- The end of an edge: the outputs and the inputs of the next cycle. -/
def State.endEdge (accepted : Bool) (s : State) : State :=
  ((s.present).driveCommand accepted).driveCycle

/-- Put the header `w` on the command ports as a command the block accepts at the coming edge. A number
that is no header cannot stand on the ports: no command is presented then. -/
def State.offerHeader (s : State) (w : Nat) : State :=
  if w < 2 ^ Config.headerBits then
    { s with
      rst := false
      cmdValid := true
      cmdReady := true
      cmd := { s.cmd with op := headerOp w, len := headerLen w } }
  else { s with cmdValid := false }

end Sys2Proof.Machine
end

