-- ==== Sys2Proof/Machine/Daily.lean ====
section
/-! DEFINITION. The daily operations `DDEC` and `DENC` (40_daily.md). -/

namespace Sys2Proof.Machine

open Sys2Proof

/-- The answer of `DDEC`: the length check (R61), then the 48 slots (R60, R63). No range check (R62). -/
def ddecResponse (len : Nat) (elem : Lanes) : Response :=
  match lengthCheck Config.nDBytes len with
  | some k => Response.raise k
  | none => Response.ofElems (dailySlots elem)

/-- The answer of `DENC`: the length check (R65), the range check (R66), then the 12 bytes (R64, R68). -/
def dencResponse (len : Nat) (elem : Lanes) : Response :=
  match encodeCheck Config.nDaily len elem with
  | some k => Response.raise k
  | none => Response.ofElems (dailyBytes elem)

/-- `DDEC` (R60): the command on the ports gets its answer; nothing else changes (R13, R103). -/
def execDdec (len : Nat) (s : State) : Host.Outcome State Fault Refusal :=
  .next (s.answer (.ddec len) (ddecResponse len s.cmd.elem))

/-- `DENC` (R64): the command on the ports gets its answer; nothing else changes (R13, R103). -/
def execDenc (len : Nat) (s : State) : Host.Outcome State Fault Refusal :=
  .next (s.answer (.denc len) (dencResponse len s.cmd.elem))

end Sys2Proof.Machine
end

