-- ==== Sys2Proof/Machine/Weekly.lean ====
section
/-! DEFINITION. The weekly operations `WDEC` and `WENC` (41_weekly.md). -/

namespace Sys2Proof.Machine

open Sys2Proof

/-- The answer of `WDEC`: the 7 slots of the significant bits, whatever the unused bits, the stated length
and the elements hold (R70 to R73). -/
def wdecResponse (word : Word) : Response :=
  Response.ofElems (weeklySlots word.days)

/-- The answer of `WENC`: the length check (R75), the range check (R76), then the word (R74, R77, R78). -/
def wencResponse (len : Nat) (elem : Lanes) : Response :=
  match encodeCheck Config.nWeekly len elem with
  | some k => Response.raise k
  | none => Response.ofWord (weekWord elem)

/-- `WDEC` (R70): the command on the ports gets its answer; nothing else changes (R13). -/
def execWdec (len : Nat) (s : State) : Host.Outcome State Fault Refusal :=
  .next (s.answer (.wdec len) (wdecResponse s.cmd.word))

/-- `WENC` (R74): the command on the ports gets its answer; nothing else changes (R13, R103). -/
def execWenc (len : Nat) (s : State) : Host.Outcome State Fault Refusal :=
  .next (s.answer (.wenc len) (wencResponse len s.cmd.elem))

end Sys2Proof.Machine
end

