-- ==== Sys2Proof/Machine/Dispatch.lean ====
section
/-! DEFINITION. One arm per instruction of the opcode table. -/

namespace Sys2Proof.Machine

open Sys2Proof

/-- The effect of an accepted command (R15, R95: one step from operand to outcome). -/
def exec (i : Instr) (s : State) : Host.Outcome State Fault Refusal :=
  match i with
  | .ddec len => Sys2Proof.Machine.execDdec len s
  | .denc len => Sys2Proof.Machine.execDenc len s
  | .wdec len => Sys2Proof.Machine.execWdec len s
  | .wenc len => Sys2Proof.Machine.execWenc len s

end Sys2Proof.Machine
end

