-- ==== Sys2Proof/Machine/Step.lean ====
section
/-! DEFINITION. One step: one rising edge of `clk` (R21). -/

namespace Sys2Proof.Machine

open Sys2Proof

/-- One rising edge. With `rst` at 1 the commands in flight are dropped and none is accepted (R115).
Otherwise the host takes the response presented, if it accepts it (R23), and a command that is transferred
(R22) is executed whole, from operand to outcome (R15, R110). Every edge ends by setting the ports of the
next cycle.

DESIGN CHOICE (log entry 7), unsafe: the response of a command accepted at this edge is presented in the next
cycle at the earliest, so `rst` at the next edge always drops it. R122 allows latency zero, where the response
may be transferred at the accepting edge, and then the next edge has nothing of it to drop. -/
def step (s : State) : Host.Outcome State Fault Refusal :=
  if s.rst then .next (s.dropInFlight.endEdge false)
  else if s.accepts then
    match decode s.header with
    | .error _ => .refused .notAHeader
    | .ok i =>
      match exec i s.takeResponse with
      | .next t => .next (t.endEdge true)
      | .fault f => .fault f
      | .refused r => .refused r
  else .next (s.takeResponse.endEdge false)

/-- `s` with the header `w` on its command ports, offered so that the coming edge accepts it. The operand
elements and word stay as they stand. -/
def State.withFetchWord (s : State) (_nbits w : Nat) : State :=
  s.offerHeader w

end Sys2Proof.Machine
end

