-- ==== Sys2Proof/Machine/Views.lean ====
section
/-! DEFINITION. How the port view carries the transaction view (R11): which operand a command on the ports
stands for, and how an outcome is written on the response ports. The machine does not use this file; the
statements that tie the two views together do. -/

namespace Sys2Proof.Machine

open Sys2Proof

/-- An 8-bit slot element stands for the integer it is when read as unsigned, or when read as two's
complement (R53). -/
abbrev StandsFor (e : Byte) (v : Int) : Prop :=
  v = (e.toNat : Int) ∨ v = e.toInt

/-- The transaction-view command that a command on the ports stands for. `cmd_len` states the number of
operand elements, and lane `j` is operand element `j` for `j < min(cmd_len, 48)` (R22, R53); the elements
beyond the last lane are on no port, so any values do. -/
def Presents (i : Instr) (elem : Lanes) (word : Word) (c : Tx.Command) : Prop :=
  match i, c with
  | .ddec len, .ddec opnd =>
    opnd.length = len ∧ ∀ j < min len Config.nLanes, opnd[j]? = some (lane elem j)
  | .denc len, .denc opnd =>
    opnd.length = len ∧ ∀ j < min len Config.nLanes, ∃ v, opnd[j]? = some v ∧ StandsFor (lane elem j) v
  | .wdec _, .wdec opnd => opnd = word.bits.toNat
  | .wenc len, .wenc opnd =>
    opnd.length = len ∧ ∀ j < min len Config.nLanes, ∃ v, opnd[j]? = some v ∧ StandsFor (lane elem j) v
  | _, _ => False

/-- An outcome on the response ports (R23, R54, R55): slot values zero extended, bytes as they are, the
weekly integer zero extended to `W_WORD` bits, an error by its status alone. -/
def responseOf : Tx.Result Tx.Value → Response
  | .ok (.slots s) => Response.ofElems (s.map (BitVec.ofInt 8))
  | .ok (.bytes b) => Response.ofElems b
  | .ok (.word n) => Response.ofWord (Word.ofNat n)
  | .error k => Response.raise k

/-- A response in flight or received is the one the transaction view gives for its own command (R24). -/
def Transaction.Answered (t : Transaction) : Prop :=
  ∀ c, Presents t.instr t.elem t.word c → t.rsp = responseOf (Tx.outcome c)

end Sys2Proof.Machine
end

