-- ==== Sys2Proof/Safety.lean ====
section
/-! DEFINITION. What counts as a safe run, in the terms the statements use. -/

namespace Sys2Proof.Safety

open Sys2Proof Sys2Proof.Machine

/-- Every response presented, in flight or received is the outcome of its own command and of nothing else
(R24, R37). -/
def EveryAnswerIsItsOwn (s : State) : Prop :=
  ∀ t ∈ s.received ++ s.inFlight, t.Answered

/-- The host's plan asserts `rst` in no cycle from now on. -/
abbrev NoReset (s : State) : Prop :=
  s.rst = false ∧ ∀ c ∈ s.hostCycles, c.rst = false

/-- The commands the host has still to have accepted, in order: the one on the ports, then the planned
ones. -/
def unaccepted (s : State) : List Command :=
  (if s.cmdValid then [s.cmd] else []) ++ s.hostCmds.filterMap id

/-- `t` is the answered transaction of the port command `c`: the same operands, the instruction that the
header names, and the transaction view's outcome (R24). -/
def AnswerTo (c : Command) (t : Transaction) : Prop :=
  decode (c.len.toNat <<< 2 ||| c.op.toNat) = .ok t.instr ∧ t.elem = c.elem ∧ t.word = c.word
    ∧ t.Answered

end Sys2Proof.Safety
end

