-- ==== Sys2Proof/Certificates/Slice0/Obligations.lean ====
section
/-! DEFINITION. The statements for the provers. Those about `Tx` formalise the document's own rules (the
transaction view, R11); those about `exec`, `step` and the header concern the port view, which the spec
marks as its own decisions (92_eei_decisions.md). Nothing here states a value of the model's own fields
(log entries 2 to 6): they are held for every value. -/

open Sys2Proof Sys2Proof.Machine

/-! ## The command header (30_encoding.md section 5) -/

/-- Headers written out bit by bit from R51 and R52, as 95_test_vectors.md programs P1 to P3 list them,
decode to the commands they stand for. -/
def Obligations.ListedHeadersDecode : Prop :=
  decode 0b000110000 = .ok (.ddec 12) ∧ decode 0b011000001 = .ok (.denc 48)
    ∧ decode 0b000000010 = .ok (.wdec 0) ∧ decode 0b000011111 = .ok (.wenc 7)
    ∧ decode 0b000011011 = .ok (.wenc 6) ∧ decode 0b000110100 = .ok (.ddec 13)

/-- Every instruction a header can state is read back from its own encoding, with its length. -/
def Obligations.DecodeOfEncodeIsTheInstruction : Prop :=
  ∀ i : Instr, i.WellFormed → decode (encode i) = .ok i

/-- R51, R52, R57: every nine-bit number is a header of a well-formed instruction; its bits 1..0 are the
operation code, its bits 8..2 the length, and encoding gives the number back. -/
def Obligations.EveryNineBitNumberIsAHeader : Prop :=
  ∀ w < 512, ∃ i : Instr, decode w = .ok i ∧ i.WellFormed ∧ i.opcode = w % 4 ∧ i.len = w / 4 ∧ encode i = w

/-- A number with a bit above bit 8 is no header, and is rejected by name (the model's choice, log
entry 8). -/
def Obligations.WiderNumbersAreNoHeader : Prop :=
  ∀ w, 512 ≤ w → decode w = .error .widerThanHeader

/-! ## What each command answers at the ports -/

/-- `DDEC` of 12 bytes completes: result element `4i+j` is the field of byte lane `i` at offset `2j`, and
nothing changes but that the command joins the commands in flight. -/
def Obligations.DdecAnswersTheSlots : Prop :=
  ∀ s : State, ∃ slots : List Byte,
    exec (.ddec 12) s = .next { s with pending := s.pending ++ [
      { instr := .ddec 12, elem := s.cmd.elem, word := s.cmd.word,
        rsp := { status := .ok, elem := slots, word := none } }] }
    ∧ slots.length = 48
    ∧ ∀ i < 12, ∀ j < 4,
        slots[4 * i + j]? = some (BitVec.ofNat 8 ((lane s.cmd.elem i).toNat >>> (2 * j) % 4))

/-- `DDEC` of any other length completes with `ShapeError`, whatever the lanes hold, and with no result. -/
def Obligations.DdecAnswersShapeError : Prop :=
  ∀ (len : Nat) (s : State), len ≠ 12 →
    exec (.ddec len) s = .next { s with pending := s.pending ++ [
      { instr := .ddec len, elem := s.cmd.elem, word := s.cmd.word,
        rsp := { status := .shapeError, elem := [], word := none } }] }

/-- `DENC` of 48 slots in range completes: byte `i` is the weighted sum of slots `4i` to `4i+3`. -/
def Obligations.DencAnswersTheBytes : Prop :=
  ∀ s : State, (∀ k < 48, (lane s.cmd.elem k).toNat ≤ 3) → ∃ bytes : List Byte,
    exec (.denc 48) s = .next { s with pending := s.pending ++ [
      { instr := .denc 48, elem := s.cmd.elem, word := s.cmd.word,
        rsp := { status := .ok, elem := bytes, word := none } }] }
    ∧ bytes.length = 12
    ∧ ∀ i < 12, ∃ b, bytes[i]? = some b ∧
        b.toNat = (lane s.cmd.elem (4 * i)).toNat + 4 * (lane s.cmd.elem (4 * i + 1)).toNat
          + 16 * (lane s.cmd.elem (4 * i + 2)).toNat + 64 * (lane s.cmd.elem (4 * i + 3)).toNat

/-- `DENC` of any other length completes with `ShapeError`, whatever the elements hold (R100). -/
def Obligations.DencAnswersShapeError : Prop :=
  ∀ (len : Nat) (s : State), len ≠ 48 →
    exec (.denc len) s = .next { s with pending := s.pending ++ [
      { instr := .denc len, elem := s.cmd.elem, word := s.cmd.word,
        rsp := { status := .shapeError, elem := [], word := none } }] }

/-- `DENC` of 48 elements with one out of range, at any lane, completes with `RangeError`. -/
def Obligations.DencAnswersRangeError : Prop :=
  ∀ s : State, (∃ k < 48, 3 < (lane s.cmd.elem k).toNat) →
    exec (.denc 48) s = .next { s with pending := s.pending ++ [
      { instr := .denc 48, elem := s.cmd.elem, word := s.cmd.word,
        rsp := { status := .rangeError, elem := [], word := none } }] }

/-- `WDEC` completes for every word, every stated length and every lane: result element `d` is the field
of the word at offset `2d`. -/
def Obligations.WdecAnswersTheSlots : Prop :=
  ∀ (len : Nat) (s : State), ∃ slots : List Byte,
    exec (.wdec len) s = .next { s with pending := s.pending ++ [
      { instr := .wdec len, elem := s.cmd.elem, word := s.cmd.word,
        rsp := { status := .ok, elem := slots, word := none } }] }
    ∧ slots.length = 7
    ∧ ∀ d < 7, slots[d]? = some (BitVec.ofNat 8 (s.cmd.word.bits.toNat >>> (2 * d) % 4))

/-- `WENC` of 7 slots in range completes: the word is their weighted sum, and its bits 14 and above are
zero. -/
def Obligations.WencAnswersTheWord : Prop :=
  ∀ s : State, (∀ d < 7, (lane s.cmd.elem d).toNat ≤ 3) → ∃ w : Word,
    exec (.wenc 7) s = .next { s with pending := s.pending ++ [
      { instr := .wenc 7, elem := s.cmd.elem, word := s.cmd.word,
        rsp := { status := .ok, elem := [], word := some w } }] }
    ∧ w.bits.toNat = (lane s.cmd.elem 0).toNat + 4 * (lane s.cmd.elem 1).toNat + 16 * (lane s.cmd.elem 2).toNat
        + 64 * (lane s.cmd.elem 3).toNat + 256 * (lane s.cmd.elem 4).toNat
        + 1024 * (lane s.cmd.elem 5).toNat + 4096 * (lane s.cmd.elem 6).toNat
    ∧ w.bits.toNat < 2 ^ 14

/-- `WENC` of any other length completes with `ShapeError`, whatever the elements hold (R100). -/
def Obligations.WencAnswersShapeError : Prop :=
  ∀ (len : Nat) (s : State), len ≠ 7 →
    exec (.wenc len) s = .next { s with pending := s.pending ++ [
      { instr := .wenc len, elem := s.cmd.elem, word := s.cmd.word,
        rsp := { status := .shapeError, elem := [], word := none } }] }

/-- `WENC` of 7 elements with one out of range, at any lane, completes with `RangeError`. -/
def Obligations.WencAnswersRangeError : Prop :=
  ∀ s : State, (∃ d < 7, 3 < (lane s.cmd.elem d).toNat) →
    exec (.wenc 7) s = .next { s with pending := s.pending ++ [
      { instr := .wenc 7, elem := s.cmd.elem, word := s.cmd.word,
        rsp := { status := .rangeError, elem := [], word := none } }] }

/-- Every instruction, in every state, completes (R57: there is no illegal operation); its frame: no port,
no earlier command in flight and no field of the model changes; and its response has the shape of R23 and
R54: a success has 48, 12, 7 or 0 elements and a word exactly for `WENC`, an error has nothing. -/
def Obligations.EveryCommandCompletesWithItsShape : Prop :=
  ∀ (i : Instr) (s : State), ∃ r : Response,
    exec i s = .next { s with pending := s.pending ++ [
      { instr := i, elem := s.cmd.elem, word := s.cmd.word, rsp := r }] }
    ∧ (r.status ≠ .ok → r.len = 0 ∧ r.elem = [] ∧ r.word = none)
    ∧ (r.status = .ok →
        r.elem.length = r.len.toNat ∧
        match i with
        | .ddec _ => r.len = 48 ∧ r.word = none
        | .denc _ => r.len = 12 ∧ r.word = none
        | .wdec _ => r.len = 7 ∧ r.word = none
        | .wenc _ => r.len = 0 ∧ r.word ≠ none)

/-- R25: a response does not depend on an input its operation does not use. Two states that agree on the
lanes below `min(cmd_len, 48)` (for `WDEC`, on the word alone, whatever the lengths) get one response, for
every value of every other port, of the handshake and of what was executed before. -/
def Obligations.UnusedInputsAndHistoryAreIgnored : Prop :=
  (∀ (len : Nat) (s₁ s₂ : State), (∀ j < min len 48, lane s₁.cmd.elem j = lane s₂.cmd.elem j) →
    ∀ i ∈ [Instr.ddec len, Instr.denc len, Instr.wenc len], ∃ r : Response,
      (∃ t₁, exec i s₁ = .next t₁ ∧ t₁.pending = s₁.pending ++ [
        { instr := i, elem := s₁.cmd.elem, word := s₁.cmd.word, rsp := r }])
      ∧ (∃ t₂, exec i s₂ = .next t₂ ∧ t₂.pending = s₂.pending ++ [
        { instr := i, elem := s₂.cmd.elem, word := s₂.cmd.word, rsp := r }]))
  ∧ (∀ (len₁ len₂ : Nat) (s₁ s₂ : State), s₁.cmd.word = s₂.cmd.word → ∃ r : Response,
      (∃ t₁, exec (.wdec len₁) s₁ = .next t₁ ∧ t₁.pending = s₁.pending ++ [
        { instr := .wdec len₁, elem := s₁.cmd.elem, word := s₁.cmd.word, rsp := r }])
      ∧ (∃ t₂, exec (.wdec len₂) s₂ = .next t₂ ∧ t₂.pending = s₂.pending ++ [
        { instr := .wdec len₂, elem := s₂.cmd.elem, word := s₂.cmd.word, rsp := r }]))

/-! ## The two views (00_scope.md R11, 10_state.md R24) -/

/-- Every command on the ports stands for some command of the transaction view. -/
def Obligations.EveryPortCommandHasAnOperand : Prop :=
  ∀ (i : Instr) (elem : Lanes) (word : Word), ∃ c : Tx.Command, Presents i elem word c

/-- The port view refines the transaction view: whichever transaction-view command the ports stand for, by
either reading of an element, the answer is the transaction-view outcome as R54 and R55 write it. -/
def Obligations.PortsCarryTheTransactionOutcome : Prop :=
  ∀ (i : Instr) (s : State) (c : Tx.Command), Presents i s.cmd.elem s.cmd.word c →
    exec i s = .next { s with pending := s.pending ++ [
      { instr := i, elem := s.cmd.elem, word := s.cmd.word, rsp := responseOf (Tx.outcome c) }] }

/-- R53: under the unsigned and the two's complement reading of an element the range test of the
transaction view gives one verdict, the one on bits 7..2, and an in-range element is its bits 1..0. -/
def Obligations.EitherReadingGivesOneVerdict : Prop :=
  ∀ (e : Byte) (v : Int), StandsFor e v →
    (elemInRange e = true ↔ e.toNat / 4 = 0) ∧ (Tx.inRange v = true ↔ e.toNat / 4 = 0)
    ∧ (Tx.inRange v = true → v = e.toNat % 4 ∧ v = (elemSlot e).toNat)

/-- R10, R47, R71, R77: `W_WORD` is at least 14; the ports' slots are those of the whole word and their
result word is R78's at that width; and at every width of at least 14 the weekly operations agree with the
transaction view, with the unused high bits of the operand ignored and those of the result zero. -/
def Obligations.WeeklyPortsServeEveryWordWidth : Prop :=
  14 ≤ Config.wWord
  ∧ (∀ word : Word, wdecResponse word = Response.ofElems (weeklySlots word.bits))
  ∧ (∀ elem : Lanes, (∀ d < 7, (lane elem d).toNat ≤ 3) → ∃ word : Word,
      wencResponse 7 elem = Response.ofWord word ∧ word.bits = weeklyWord Config.wWord elem)
  ∧ ∀ w, 14 ≤ w →
    (∀ P : BitVec w, ∃ days, Tx.wdec P.toNat = .ok days ∧ weeklySlots P = days.map (BitVec.ofInt 8)
      ∧ weeklySlots (P &&& 0x3FFF) = weeklySlots P)
    ∧ (∀ elem : Lanes, (∀ d < 7, (lane elem d).toNat ≤ 3) →
        Tx.wenc ((elem.toList.take 7).map fun e => (e.toNat : Int)) = .ok (weeklyWord w elem).toNat
        ∧ (weeklyWord w elem).toNat < 2 ^ 14)

/-- R55: decode results can be presented unchanged to the encode operation, and bytes to `DDEC`: a daily
round trip at the ports gives back the 12 bytes. -/
def Obligations.DailyRoundTripAtThePorts : Prop :=
  ∀ s : State, ∃ slots : List Byte,
    (∃ t, exec (.ddec 12) s = .next t ∧ t.pending = s.pending ++ [
      { instr := .ddec 12, elem := s.cmd.elem, word := s.cmd.word,
        rsp := { status := .ok, elem := slots, word := none } }])
    ∧ ∀ s' : State, (∀ k < 48, slots[k]? = some (lane s'.cmd.elem k)) →
        ∃ t', exec (.denc 48) s' = .next t' ∧ t'.pending = s'.pending ++ [
          { instr := .denc 48, elem := s'.cmd.elem, word := s'.cmd.word,
            rsp := { status := .ok, elem := s.cmd.elem.toList.take 12, word := none } }]

/-- R83 at the ports: re-encoding the slots of a word gives the word with bits 14 and above cleared. -/
def Obligations.WeeklyRoundTripAtThePorts : Prop :=
  ∀ (len : Nat) (s : State), ∃ (slots : List Byte) (w : Word), w.bits = s.cmd.word.bits &&& 0x3FFF ∧
    (∃ t, exec (.wdec len) s = .next t ∧ t.pending = s.pending ++ [
      { instr := .wdec len, elem := s.cmd.elem, word := s.cmd.word,
        rsp := { status := .ok, elem := slots, word := none } }])
    ∧ ∀ s' : State, (∀ d < 7, slots[d]? = some (lane s'.cmd.elem d)) →
        ∃ t', exec (.wenc 7) s' = .next t' ∧ t'.pending = s'.pending ++ [
          { instr := .wenc 7, elem := s'.cmd.elem, word := s'.cmd.word,
            rsp := { status := .ok, elem := [], word := some w } }]

/-! ## One clock edge -/

/-- The step runs the decoded command: with `rst` at 0, `cmd_valid` and `cmd_ready` at 1 and the header on
the ports decoding to `i`, the step takes the response presented, runs `exec i`, and ends the edge. -/
def Obligations.StepRunsTheCommandOnThePorts : Prop :=
  ∀ (s : State) (i : Instr), s.rst = false → s.cmdValid = true → s.cmdReady = true →
    decode (s.cmd.len.toNat * 4 + s.cmd.op.toNat) = .ok i →
    step s = match exec i s.takeResponse with
      | .next t => .next (t.endEdge true)
      | .fault f => .fault f
      | .refused r => .refused r

/-- The machine never stops: every state has a next state. -/
def Obligations.EveryStateHasANextState : Prop :=
  ∀ s : State, ∃ t, step s = .next t

/-- R115: an edge with `rst` at 1 drops every command in flight without a response, takes `rsp_valid` to
0 and accepts no command; a command the host presents stays on the ports (the model's host, log entry 6). That the host receives
nothing more at this edge is the reading of log entry 9. That a command accepted at the edge before is
always among those in flight is the model's choice, log entry 7: in a block of latency zero (R122) its response
may have been transferred already. -/
def Obligations.ResetEdgeDropsCommandsInFlight : Prop :=
  ∀ s : State, s.rst = true → ∃ t, step s = .next t
    ∧ t.inFlight = [] ∧ t.rspValid = false ∧ t.received = s.received
    ∧ (s.cmdValid = true → t.cmdValid = true ∧ t.cmd = s.cmd ∧ t.hostCmds = s.hostCmds)

/-- R23: with `rsp_valid` and `rsp_ready` at 1 the response presented is transferred to the host. -/
def Obligations.ReadyHostReceivesTheResponse : Prop :=
  ∀ (s : State) (x : Transaction), s.rst = false → s.rsp = some x → s.rspReady = true →
    ∃ t, step s = .next t ∧ t.received = s.received ++ [x]

/-- R120: a response presented and not taken stays presented, unchanged, and none is transferred. -/
def Obligations.UntakenResponseIsHeld : Prop :=
  ∀ (s : State) (x : Transaction), s.rst = false → s.rsp = some x → s.rspReady = false →
    ∃ t, step s = .next t ∧ t.rsp = some x ∧ t.received = s.received

/-- R120: a command presented and not accepted stays on the ports, unchanged (the host's duty, kept by the
model's host, log entry 6); it does not join the commands in flight. -/
def Obligations.UnacceptedCommandIsHeld : Prop :=
  ∀ s : State, s.rst = false → s.cmdValid = true → s.cmdReady = false →
    ∃ t, step s = .next t ∧ t.cmdValid = true ∧ t.cmd = s.cmd ∧ t.hostCmds = s.hostCmds
      ∧ t.received ++ t.inFlight = s.received ++ s.inFlight

/-- R24: every accepted command produces exactly one response, and responses keep the order of acceptance.
An edge without `rst` appends to the responses received and in flight the answer of the command it
accepts, and nothing when it accepts none; no response is lost, and none received is taken back. -/
def Obligations.OneAnswerPerAcceptedCommandInOrder : Prop :=
  ∀ s : State, s.rst = false → ∃ t new, step s = .next t
    ∧ t.received ++ t.inFlight = s.received ++ s.inFlight ++ new
    ∧ s.received <+: t.received
    ∧ (s.cmdValid = true ∧ s.cmdReady = true → ∃ x, new = [x] ∧ Safety.AnswerTo s.cmd x)
    ∧ (¬(s.cmdValid = true ∧ s.cmdReady = true) → new = [])

/-- Every response presented, in flight or received is the transaction-view outcome of its own command, and
every step keeps it so. -/
def Obligations.StepsKeepEveryAnswerItsOwn : Prop :=
  ∀ s t : State, Safety.EveryAnswerIsItsOwn s → step s = .next t → Safety.EveryAnswerIsItsOwn t

/-- The invariant holds at reset. -/
def Obligations.ResetHasEveryAnswerItsOwn : Prop :=
  Safety.EveryAnswerIsItsOwn State.reset

/-- R27, R115: after reset no command is in flight and `rsp_valid` is 0. -/
def Obligations.ResetHasNothingInFlight : Prop :=
  State.reset.inFlight = [] ∧ State.reset.rspValid = false

/-- R24, R37, R123: if the host asserts no `rst`, then after finitely many steps every command it presents
or plans has been accepted and answered, every response has been transferred, and the responses are those
in flight before, then one for each command, in order, each the outcome of that command alone. It holds for
every plan of the host and of the implementation's timing; that a host whose plan has ended takes every
response is log entry 6 (R123's proviso), and that every delay of the implementation ends, in states where
R123 does not promise it too, is log entry 4. -/
def Obligations.EveryCommandIsAnsweredInOrder : Prop :=
  ∀ s : State, Safety.NoReset s → ∃ n t answers,
    Host.Core.run core n s = .next t
    ∧ t.cmdValid = false ∧ t.hostCmds = [] ∧ t.inFlight = []
    ∧ t.received = s.received ++ s.inFlight ++ answers
    ∧ List.Forall₂ Safety.AnswerTo (Safety.unaccepted s) answers

/-- From every state and for every plan, `cmd_ready` becomes 1 within one step more than the length of
`holds`. This is the model's choice, log entry 4 (DESIGN CHOICE): the implementation's timing is a finite
list and nothing is held back after its end. R115 and R123 promise less: `cmd_ready` becomes 1 in finite
time after reset and again after a response is accepted; they give no bound and speak of no other state. The
number of steps is not a time of the hardware: for the empty list of `State.reset` it is one edge, which the
spec does not promise. -/
def Obligations.CommandReadyComes : Prop :=
  ∀ s : State, ∃ n ≤ s.holds.length + 1, ∃ t, Host.Core.run core n s = .next t ∧ t.cmdReady = true

/-- R54: the status codes are distinct, `0b11` is never driven, and the host's reading of a code is the
status it came from; the response headers of 95_test_vectors.md P1 to P3 are those of a success of each
operation and of the two errors. -/
def Obligations.ResponseHeaderCodes : Prop :=
  (∀ st : Status, st.code ≠ 0b11 ∧ Status.ofCode st.code = some st) ∧ Status.ofCode 0b11 = none
    ∧ (Response.ofElems (List.replicate 48 0)).header = 0xC0
    ∧ (Response.ofElems (List.replicate 12 0)).header = 0x30
    ∧ (Response.ofElems (List.replicate 7 0)).header = 0x1C
    ∧ (∀ w, (Response.ofWord w).header = 0x00)
    ∧ (Response.raise .shapeError).header = 0x01 ∧ (Response.raise .rangeError).header = 0x02

/-! ## The operations of the transaction view -/

/-- R60 to R62: `DDEC` is operation code `0b00`; a length other than 12 is `ShapeError`; 12 bytes give 48
slots, element `4i+j` the field of byte `i` at offset `2j`, each in [0,3]; never `RangeError`. The code and
its place in the header are the spec's decision D3 (R51, R52). -/
def Obligations.DdecExtractsEveryField : Prop :=
  (∀ len < 128, decode (4 * len + 0b00) = .ok (.ddec len))
  ∧ ∀ opnd : List Byte,
    (opnd.length ≠ 12 → Tx.ddec opnd = .error .shapeError)
    ∧ (opnd.length = 12 → ∃ res, Tx.ddec opnd = .ok res ∧ res.length = 48
        ∧ (∀ i < 12, ∀ j < 4, ∃ b, opnd[i]? = some b
            ∧ res[4 * i + j]? = some (((b.toNat >>> (2 * j)) &&& 0b11 : Nat) : Int))
        ∧ ∀ v ∈ res, 0 ≤ v ∧ v ≤ 3)
    ∧ Tx.ddec opnd ≠ .error .rangeError

/-- R64 to R66: `DENC` is operation code `0b01`; a length other than 48 is `ShapeError`; 48 elements with
one outside [0,3] are `RangeError`; otherwise byte `i` is the OR of slots `4i` to `4i+3` shifted by 0, 2, 4
and 6, equally their weighted sum. That a wrong length gives `ShapeError` also when an element is out of
range is the spec's decision D9 (R100, log entry 10); the code and its place in the header are its decision
D3 (R51, R52). -/
def Obligations.DencPacksFourSlotsAByte : Prop :=
  (∀ len < 128, decode (4 * len + 0b01) = .ok (.denc len))
  ∧ ∀ opnd : List Int,
    (opnd.length ≠ 48 → Tx.denc opnd = .error .shapeError)
    ∧ (opnd.length = 48 → (∃ v ∈ opnd, v < 0 ∨ v > 3) → Tx.denc opnd = .error .rangeError)
    ∧ (opnd.length = 48 → (∀ v ∈ opnd, 0 ≤ v ∧ v ≤ 3) →
        ∃ res, Tx.denc opnd = .ok res ∧ res.length = 12 ∧
          ∀ i < 12, ∃ (b : Byte) (s₀ s₁ s₂ s₃ : Nat), res[i]? = some b
            ∧ opnd[4 * i]? = some (s₀ : Int) ∧ opnd[4 * i + 1]? = some (s₁ : Int)
            ∧ opnd[4 * i + 2]? = some (s₂ : Int) ∧ opnd[4 * i + 3]? = some (s₃ : Int)
            ∧ b.toNat = (s₀ ||| s₁ <<< 2 ||| s₂ <<< 4 ||| s₃ <<< 6)
            ∧ b.toNat = s₀ + 4 * s₁ + 16 * s₂ + 64 * s₃)

/-- R70 to R72: `WDEC` is operation code `0b10`; every word gives 7 slots, element `d` the field at offset
`2d`; bits 14 and above are ignored; there is no error. The code and its place in the header are the spec's
decision D3 (R51, R52). -/
def Obligations.WdecExtractsEveryDay : Prop :=
  (∀ len < 128, decode (4 * len + 0b10) = .ok (.wdec len))
  ∧ ∀ P : Nat, ∃ res, Tx.wdec P = .ok res ∧ res.length = 7
    ∧ (∀ d < 7, res[d]? = some (((P >>> (2 * d)) &&& 0b11 : Nat) : Int))
    ∧ (∀ v ∈ res, 0 ≤ v ∧ v ≤ 3)
    ∧ Tx.wdec (P &&& 0x3FFF) = .ok res

/-- R74 to R77: `WENC` is operation code `0b11`; a length other than 7 is `ShapeError`; 7 elements with one
outside [0,3] are `RangeError`; otherwise the word is the OR of the slots shifted by `2d`, equally their
weighted sum, and fits in 14 bits (R74, R77). That a wrong length gives `ShapeError` also when an element is
out of range is the spec's decision D9 (R100, log entry 10); the code and its place in the header are its
decision D3 (R51, R52). -/
def Obligations.WencPacksSevenDays : Prop :=
  (∀ len < 128, decode (4 * len + 0b11) = .ok (.wenc len))
  ∧ ∀ opnd : List Int,
    (opnd.length ≠ 7 → Tx.wenc opnd = .error .shapeError)
    ∧ (opnd.length = 7 → (∃ v ∈ opnd, v < 0 ∨ v > 3) → Tx.wenc opnd = .error .rangeError)
    ∧ ∀ s₀ s₁ s₂ s₃ s₄ s₅ s₆ : Nat,
        opnd = [(s₀ : Int), (s₁ : Int), (s₂ : Int), (s₃ : Int), (s₄ : Int), (s₅ : Int), (s₆ : Int)] →
        (∀ v ∈ opnd, 0 ≤ v ∧ v ≤ 3) →
        ∃ w, Tx.wenc opnd = .ok w
          ∧ w = (s₀ ||| s₁ <<< 2 ||| s₂ <<< 4 ||| s₃ <<< 6 ||| s₄ <<< 8 ||| s₅ <<< 10 ||| s₆ <<< 12)
          ∧ w = s₀ + 4 * s₁ + 16 * s₂ + 64 * s₃ + 256 * s₄ + 1024 * s₅ + 4096 * s₆
          ∧ w ≤ 0x3FFF

/-- R95: the outcome table. Every operation has, on every operand, the outcome of its row. That
an operand with both faults falls under `ShapeError` is the spec's decision D9 (R100, log entry 10). -/
def Obligations.OutcomeTableIsTotal : Prop :=
  (∀ b : List Byte,
    (b.length ≠ 12 ∧ Tx.outcome (.ddec b) = .error .shapeError)
    ∨ (b.length = 12 ∧ ∃ s, Tx.outcome (.ddec b) = .ok (.slots s) ∧ Tx.WellFormedSlots 48 s))
  ∧ (∀ s : List Int,
    (s.length ≠ 48 ∧ Tx.outcome (.denc s) = .error .shapeError)
    ∨ (s.length = 48 ∧ (∃ v ∈ s, ¬(0 ≤ v ∧ v ≤ 3)) ∧ Tx.outcome (.denc s) = .error .rangeError)
    ∨ (Tx.WellFormedSlots 48 s ∧ ∃ b, Tx.outcome (.denc s) = .ok (.bytes b) ∧ b.length = 12))
  ∧ (∀ P : Nat, ∃ s, Tx.outcome (.wdec P) = .ok (.slots s) ∧ Tx.WellFormedSlots 7 s)
  ∧ (∀ s : List Int,
    (s.length ≠ 7 ∧ Tx.outcome (.wenc s) = .error .shapeError)
    ∨ (s.length = 7 ∧ (∃ v ∈ s, ¬(0 ≤ v ∧ v ≤ 3)) ∧ Tx.outcome (.wenc s) = .error .rangeError)
    ∨ (Tx.WellFormedSlots 7 s ∧ ∃ w, Tx.outcome (.wenc s) = .ok (.word w) ∧ w ≤ 0x3FFF))

/-! ## Laws that tie the operations together (42_laws.md) -/

/-- R80: daily, slots to packed to slots. -/
def Obligations.DailySlotsRoundTrip : Prop :=
  ∀ s : List Int, Tx.WellFormedSlots 48 s → ∃ b, Tx.denc s = .ok b ∧ Tx.ddec b = .ok s

/-- R81: daily, packed to slots to packed. -/
def Obligations.DailyBytesRoundTrip : Prop :=
  ∀ b : List Byte, b.length = 12 →
    ∃ s, Tx.ddec b = .ok s ∧ Tx.WellFormedSlots 48 s ∧ Tx.denc s = .ok b

/-- R82: weekly, slots to packed to slots. -/
def Obligations.WeeklySlotsRoundTrip : Prop :=
  ∀ s : List Int, Tx.WellFormedSlots 7 s → ∃ P, Tx.wenc s = .ok P ∧ P ≤ 0x3FFF ∧ Tx.wdec P = .ok s

/-- R83: weekly, packed to slots to packed: the word itself up to 0x3FFF, and with the high bits cleared
for any word. -/
def Obligations.WeeklyWordRoundTrip : Prop :=
  ∀ P : Nat, ∃ s, Tx.wdec P = .ok s ∧ Tx.wenc s = .ok (P &&& 0x3FFF)
    ∧ (P ≤ 0x3FFF → Tx.wenc s = .ok P)

/-- R84: lane independence. Two well-formed daily sequences that differ only at slot `k` have packed forms
that agree in every other byte, and in byte `k/4` in every bit outside the field of `k`; two byte sequences
that differ only inside the field of `k` decode to sequences that differ only at `k`; and the same for the
weekly pair, which the spec derives from R70 and R74. Only rejection crosses lanes: one element out of range, at any index, fails the whole encode. -/
def Obligations.LanesAreIndependent : Prop :=
  (∀ (s₁ s₂ : List Int) (k : Nat) (b₁ b₂ : List Byte),
    Tx.WellFormedSlots 48 s₁ → Tx.WellFormedSlots 48 s₂ → (∀ j, j ≠ k → s₁[j]? = s₂[j]?) →
    Tx.denc s₁ = .ok b₁ → Tx.denc s₂ = .ok b₂ →
    (∀ i, i ≠ k / 4 → b₁[i]? = b₂[i]?)
    ∧ ∀ x₁ x₂, b₁[k / 4]? = some x₁ → b₂[k / 4]? = some x₂ →
        ∀ n, n ≠ 2 * (k % 4) → n ≠ 2 * (k % 4) + 1 → x₁.getLsbD n = x₂.getLsbD n)
  ∧ (∀ (b₁ b₂ : List Byte) (k : Nat) (s₁ s₂ : List Int),
    b₁.length = 12 → b₂.length = 12 → (∀ i, i ≠ k / 4 → b₁[i]? = b₂[i]?) →
    (∀ x₁ x₂, b₁[k / 4]? = some x₁ → b₂[k / 4]? = some x₂ →
        ∀ n, n ≠ 2 * (k % 4) → n ≠ 2 * (k % 4) + 1 → x₁.getLsbD n = x₂.getLsbD n) →
    Tx.ddec b₁ = .ok s₁ → Tx.ddec b₂ = .ok s₂ →
    ∀ j, j ≠ k → s₁[j]? = s₂[j]?)
  ∧ (∀ (s₁ s₂ : List Int) (d P₁ P₂ : Nat),
    Tx.WellFormedSlots 7 s₁ → Tx.WellFormedSlots 7 s₂ → (∀ j, j ≠ d → s₁[j]? = s₂[j]?) →
    Tx.wenc s₁ = .ok P₁ → Tx.wenc s₂ = .ok P₂ →
    ∀ n, n ≠ 2 * d → n ≠ 2 * d + 1 → P₁.testBit n = P₂.testBit n)
  ∧ (∀ (P₁ P₂ d : Nat) (s₁ s₂ : List Int),
    (∀ n, n ≠ 2 * d → n ≠ 2 * d + 1 → P₁.testBit n = P₂.testBit n) →
    Tx.wdec P₁ = .ok s₁ → Tx.wdec P₂ = .ok s₂ →
    ∀ j, j ≠ d → s₁[j]? = s₂[j]?)
  ∧ (∀ (s : List Int) (k : Nat) (v : Int), s[k]? = some v → v < 0 ∨ v > 3 →
    (s.length = 48 → Tx.denc s = .error .rangeError) ∧ (s.length = 7 → Tx.wenc s = .error .rangeError))

/-- R86: fields at different offsets share no bit, so OR and sum are equal, for any two shifted slots and
for the whole of a daily byte and of a weekly word. -/
def Obligations.OrEqualsSumOnFields : Prop :=
  (∀ a b d e : Nat, a ≤ 3 → b ≤ 3 → d ≠ e →
    a <<< (2 * d) &&& b <<< (2 * e) = 0
    ∧ (a <<< (2 * d) ||| b <<< (2 * e)) = a <<< (2 * d) + b <<< (2 * e))
  ∧ (∀ s : List Int, Tx.WellFormedSlots 48 s → ∀ i < 12, ∃ b, (Tx.packDaily s)[i]? = some b ∧
      b.toNat = ((List.range 4).map fun j => Tx.slotAt s (4 * i + j) <<< (2 * j)).sum)
  ∧ (∀ s : List Int, Tx.WellFormedSlots 7 s →
      Tx.packWeekly s = ((List.range 7).map fun d => Tx.slotAt s d <<< (2 * d)).sum)

/-- R87: every masked field is in [0,3], so every element of every decode result is a well-formed slot
value, whatever the operand. -/
def Obligations.DecodedSlotsAreInRange : Prop :=
  (∀ v off : Nat, (v >>> off) &&& 0b11 ≤ 3)
  ∧ (∀ (b : List Byte) (s : List Int), Tx.ddec b = .ok s → ∀ v ∈ s, 0 ≤ v ∧ v ≤ 3)
  ∧ (∀ (P : Nat) (s : List Int), Tx.wdec P = .ok s → ∀ v ∈ s, 0 ≤ v ∧ v ≤ 3)

/-- R89: the boundary values. -/
def Obligations.BoundaryValues : Prop :=
  Tx.denc (List.replicate 48 0) = .ok (List.replicate 12 0x00)
  ∧ Tx.ddec (List.replicate 12 0x00) = .ok (List.replicate 48 0)
  ∧ Tx.denc (List.replicate 48 3) = .ok (List.replicate 12 0xFF)
  ∧ Tx.ddec (List.replicate 12 0xFF) = .ok (List.replicate 48 3)
  ∧ Tx.wenc (List.replicate 7 0) = .ok 0 ∧ Tx.wdec 0 = .ok (List.replicate 7 0)
  ∧ Tx.wenc (List.replicate 7 3) = .ok 0x3FFF ∧ Tx.wdec 0x3FFF = .ok (List.replicate 7 3)

/-- R90, daily: every sequence of 12 bytes is the packed form of exactly one well-formed schedule, and
`DDEC` is the inverse. -/
def Obligations.DailyEncodingIsABijection : Prop :=
  (∀ s₁ s₂ : List Int, Tx.WellFormedSlots 48 s₁ → Tx.WellFormedSlots 48 s₂ →
    Tx.denc s₁ = Tx.denc s₂ → s₁ = s₂)
  ∧ ∀ b : List Byte, b.length = 12 → ∃ s, Tx.WellFormedSlots 48 s ∧ Tx.denc s = .ok b ∧ Tx.ddec b = .ok s

/-- R90, weekly: every integer 0..0x3FFF is the packed form of exactly one well-formed schedule, `WDEC` is
the inverse, and `WDEC` on the words of `w` bits is `2^(w-14)` to one. -/
def Obligations.WeeklyEncodingIsABijection : Prop :=
  (∀ s₁ s₂ : List Int, Tx.WellFormedSlots 7 s₁ → Tx.WellFormedSlots 7 s₂ →
    Tx.wenc s₁ = Tx.wenc s₂ → s₁ = s₂)
  ∧ (∀ P ≤ 0x3FFF, ∃ s, Tx.WellFormedSlots 7 s ∧ Tx.wenc s = .ok P ∧ Tx.wdec P = .ok s)
  ∧ ∀ (w : Nat) (s : List Int), 14 ≤ w → Tx.WellFormedSlots 7 s →
      ((Finset.range (2 ^ w)).filter fun P => Tx.wdec P = .ok s).card = 2 ^ (w - 14)

/-- R31, R45 (decision D13): in the derived view of the 12 bytes as one number, slot `k` is bits
`2k+1..2k`, the weekly integer's formula. -/
def Obligations.JoinedBytesHoldSlotsInOrder : Prop :=
  ∀ b : List Byte, b.length = 12 → ∃ s, Tx.ddec b = .ok s ∧
    ∀ k < 48, s[k]? = some (((Tx.joined b >>> (2 * k)) &&& 0b11 : Nat) : Int)
end

