-- ==== Sys2Proof/Laws/Decode.lean ====
section
/-! SUPPORT. The fields of a command header as arithmetic. -/

namespace Sys2Proof

theorem headerOp_toNat (w : Nat) : (headerOp w).toNat = w % 4 := by simp [headerOp]

theorem headerLen_toNat (w : Nat) : (headerLen w).toNat = w / 4 % 128 := by
  simp [headerLen, Nat.shiftRight_eq_div_pow]

theorem decode_of_lt {w : Nat} (h : w < 512) :
    decode w = .ok (decodeOp (headerOp w) (headerLen w).toNat) := by
  simp [decode, h]

@[simp] theorem decodeOp_len (op : BitVec 2) (n : Nat) : (decodeOp op n).len = n := by
  unfold decodeOp; split <;> rfl

/-- The operation an operation code selects has that code (R51). -/
theorem decodeOp_opcode (op : BitVec 2) (n : Nat) : (decodeOp op n).opcode = op.toNat := by
  have key : ∀ o : BitVec 2, (decodeOp o 0).opcode = o.toNat := by decide
  rw [← key op]
  unfold decodeOp; split <;> rfl

theorem decodeOp_headerOp_opcode (i : Instr) : decodeOp (BitVec.ofNat 2 i.opcode) i.len = i := by
  cases i <;> simp [Instr.opcode, Instr.len, decodeOp]

/-- A length above an operation code is the sum of the two fields (R52). -/
theorem header_eq (len op : Nat) (h : op < 4) : len <<< 2 ||| op = len * 4 + op := by
  rw [Nat.shiftLeft_eq, Nat.mul_comm, Nat.two_pow_add_eq_or_of_lt h]

theorem opcode_lt (i : Instr) : i.opcode < 4 := by cases i <;> simp [Instr.opcode]

end Sys2Proof
end

