-- ==== Sys2Proof/Laws/Operands.lean ====
section
/-! SUPPORT. The bit slices of the ports as arithmetic, and what each check decides. -/

namespace Sys2Proof.Machine

open Sys2Proof

theorem field_toNat {w : Nat} (v : BitVec w) (off : Nat) : (field v off).toNat = v.toNat >>> off % 4 := by
  simp [field]

theorem slotByte_field {w : Nat} (v : BitVec w) (off : Nat) :
    slotByte (field v off) = BitVec.ofNat 8 (v.toNat >>> off % 4) := by
  apply BitVec.eq_of_toNat_eq
  simp [slotByte, field_toNat]

theorem elemInRange_iff (e : Byte) : elemInRange e = true ↔ e.toNat ≤ 3 := by
  have h : e.toNat < 256 := e.isLt
  simp only [elemInRange, beq_iff_eq, ← BitVec.toNat_inj, BitVec.extractLsb'_toNat, Nat.shiftRight_eq_div_pow,
    BitVec.toNat_ofNat]
  omega

theorem elemSlot_toNat (e : Byte) : (elemSlot e).toNat = e.toNat % 4 := by
  simp [elemSlot]

theorem append_toNat {m n : Nat} (x : BitVec m) (y : BitVec n) :
    (x ++ y).toNat = x.toNat * 2 ^ n + y.toNat := by
  rw [BitVec.toNat_append, Nat.shiftLeft_eq, Nat.mul_comm, Nat.two_pow_add_eq_or_of_lt y.isLt]

theorem packByte_toNat (elem : Lanes) (i : Nat) :
    (packByte elem i).toNat =
      (lane elem (4 * i)).toNat % 4 + 4 * ((lane elem (4 * i + 1)).toNat % 4)
        + 16 * ((lane elem (4 * i + 2)).toNat % 4) + 64 * ((lane elem (4 * i + 3)).toNat % 4) := by
  simp only [packByte, append_toNat, elemSlot_toNat]
  omega

theorem packWeek_toNat (elem : Lanes) :
    (packWeek elem).toNat =
      (lane elem 0).toNat % 4 + 4 * ((lane elem 1).toNat % 4) + 16 * ((lane elem 2).toNat % 4)
        + 64 * ((lane elem 3).toNat % 4) + 256 * ((lane elem 4).toNat % 4)
        + 1024 * ((lane elem 5).toNat % 4) + 4096 * ((lane elem 6).toNat % 4) := by
  simp only [packWeek, append_toNat, elemSlot_toNat]
  omega

theorem dailySlots_length (elem : Lanes) : (dailySlots elem).length = 48 := by simp [dailySlots]

theorem dailyBytes_length (elem : Lanes) : (dailyBytes elem).length = 12 := by simp [dailyBytes]

theorem weeklySlots_length {w : Nat} (v : BitVec w) : (weeklySlots v).length = 7 := by simp [weeklySlots]

theorem dailySlots_getElem? (elem : Lanes) {k : Nat} (h : k < 48) :
    (dailySlots elem)[k]? = some (BitVec.ofNat 8 ((lane elem (k / 4)).toNat >>> (2 * (k % 4)) % 4)) := by
  simp [dailySlots, List.getElem?_range h, slotByte_field]

theorem dailyBytes_getElem? (elem : Lanes) {i : Nat} (h : i < 12) :
    (dailyBytes elem)[i]? = some (packByte elem i) := by
  simp [dailyBytes, List.getElem?_range h]

theorem weeklySlots_getElem? {w : Nat} (v : BitVec w) {d : Nat} (h : d < 7) :
    (weeklySlots v)[d]? = some (BitVec.ofNat 8 (v.toNat >>> (2 * d) % 4)) := by
  simp [weeklySlots, List.getElem?_range h, slotByte_field]

/-- A word of at least 14 bits carries the fourteen packed bits whole (R77). -/
theorem weeklyWord_toNat {w : Nat} (h : 14 ≤ w) (elem : Lanes) : (weeklyWord w elem).toNat = (packWeek elem).toNat := by
  have h14 : 2 ^ 14 ≤ 2 ^ w := Nat.pow_le_pow_right (by omega) h
  simp only [weeklyWord, BitVec.toNat_setWidth]
  exact Nat.mod_eq_of_lt (Nat.lt_of_lt_of_le (packWeek elem).isLt h14)

theorem lane_getElem? (elem : Lanes) {j : Nat} (h : j < 48) : elem.toList[j]? = some (lane elem j) := by
  have hj : j < elem.toList.length := by simpa using h
  rw [lane, List.getD_eq_getElem?_getD, List.getElem?_eq_getElem hj]; rfl

/-- `W_WORD` is at least 14 (R10, R77). -/
theorem wWord_ge : 14 ≤ Config.wWord := Nat.le_add_left 14 _

/-- A word's integer, from its unused bits and its fields (R47). -/
theorem Word.bits_toNat (w : Word) : w.bits.toNat = w.unused.toNat * 2 ^ 14 + w.days.toNat :=
  append_toNat _ _

theorem Word.ext_bits {v w : Word} (h : v.bits = w.bits) : v = w := by
  have hn : v.bits.toNat = w.bits.toNat := congrArg BitVec.toNat h
  rw [Word.bits_toNat, Word.bits_toNat] at hn
  have hv := v.days.isLt
  have hw := w.days.isLt
  have hu : v.unused = w.unused := BitVec.eq_of_toNat_eq (by omega)
  have hd : v.days = w.days := BitVec.eq_of_toNat_eq (by omega)
  cases v
  cases w
  simp_all

/-- The word that carries `n` is `n` on `W_WORD` bits (R55). -/
theorem Word.ofNat_bits (n : Nat) : (Word.ofNat n).bits = BitVec.ofNat Config.wWord n := by
  apply BitVec.eq_of_toNat_eq
  have hpow : 2 ^ Config.wWord = 2 ^ 14 * 2 ^ Config.unusedBits := by
    rw [Config.wWord, Nat.pow_add, Nat.mul_comm]
  rw [Word.bits_toNat, BitVec.toNat_ofNat, hpow, Nat.mod_mul]
  simp only [Word.ofNat, BitVec.toNat_ofNat, Nat.shiftRight_eq_div_pow]
  omega

/-- No field of a word reads an unused bit (R71). -/
theorem weeklySlots_bits (w : Word) : weeklySlots w.bits = weeklySlots w.days :=
  List.map_congr_left fun d hd => by
    have hd7 : d < 7 := by simpa using hd
    rw [slotByte_field, slotByte_field, Word.bits_toNat]
    congr 1
    simp only [Nat.shiftRight_eq_div_pow]
    interval_cases d <;> simp <;> omega

/-- The result of `WENC` is R78's word of `W_WORD` bits. -/
theorem weekWord_bits (elem : Lanes) : (weekWord elem).bits = weeklyWord Config.wWord elem := by
  apply BitVec.eq_of_toNat_eq
  rw [weeklyWord_toNat wWord_ge, Word.bits_toNat]
  simp [weekWord]

/-! The lanes each result reads, and no others (R93). -/

theorem dailySlots_congr {e₁ e₂ : Lanes} (h : ∀ j < 12, lane e₁ j = lane e₂ j) : dailySlots e₁ = dailySlots e₂ :=
  List.map_congr_left fun k hk => by
    rw [h _ (by simp at hk; omega)]

theorem packByte_congr {e₁ e₂ : Lanes} {i : Nat} (hi : i < 12) (h : ∀ j < 48, lane e₁ j = lane e₂ j) :
    packByte e₁ i = packByte e₂ i := by
  rw [packByte, packByte, h (4 * i) (by omega), h (4 * i + 1) (by omega), h (4 * i + 2) (by omega),
    h (4 * i + 3) (by omega)]

theorem dailyBytes_congr {e₁ e₂ : Lanes} (h : ∀ j < 48, lane e₁ j = lane e₂ j) : dailyBytes e₁ = dailyBytes e₂ :=
  List.map_congr_left fun i hi => packByte_congr (by simpa using hi) h

theorem weeklyWord_congr (w : Nat) {e₁ e₂ : Lanes} (h : ∀ j < 7, lane e₁ j = lane e₂ j) :
    weeklyWord w e₁ = weeklyWord w e₂ := by
  rw [weeklyWord, weeklyWord, packWeek, packWeek, h 0 (by decide), h 1 (by decide), h 2 (by decide),
    h 3 (by decide), h 4 (by decide), h 5 (by decide), h 6 (by decide)]

theorem weekWord_congr {e₁ e₂ : Lanes} (h : ∀ j < 7, lane e₁ j = lane e₂ j) : weekWord e₁ = weekWord e₂ :=
  Word.ext_bits (by rw [weekWord_bits, weekWord_bits, weeklyWord_congr _ h])

theorem rangeCheck_congr {n : Nat} {e₁ e₂ : Lanes} (h : ∀ j < n, lane e₁ j = lane e₂ j) :
    rangeCheck n e₁ = rangeCheck n e₂ := by
  have hall : ((List.range n).all fun j => elemInRange (lane e₁ j))
      = (List.range n).all fun j => elemInRange (lane e₂ j) := by
    rw [Bool.eq_iff_iff]
    simp only [List.all_eq_true, List.mem_range]
    exact ⟨fun ha j hj => h j hj ▸ ha j hj, fun ha j hj => (h j hj).symm ▸ ha j hj⟩
  simp [rangeCheck, hall]

theorem lengthCheck_self (n : Nat) : lengthCheck n n = none := by simp [lengthCheck]

theorem lengthCheck_ne {n len : Nat} (h : len ≠ n) : lengthCheck n len = some .shapeError := by
  simp [lengthCheck, h]

theorem rangeCheck_of_inRange {n : Nat} {elem : Lanes} (h : ∀ k < n, (lane elem k).toNat ≤ 3) :
    rangeCheck n elem = none := by
  simp only [rangeCheck, ite_eq_left_iff, reduceCtorEq, imp_false, Decidable.not_not]
  simpa [List.all_eq_true, elemInRange_iff] using h

theorem rangeCheck_of_outOfRange {n : Nat} {elem : Lanes} (h : ∃ k < n, 3 < (lane elem k).toNat) :
    rangeCheck n elem = some .rangeError := by
  obtain ⟨k, hk, hv⟩ := h
  have : ¬ ((List.range n).all fun j => elemInRange (lane elem j)) = true := by
    simp only [List.all_eq_true, List.mem_range, elemInRange_iff, not_forall]
    exact ⟨k, hk, by omega⟩
  simp [rangeCheck, this]

/-- The encode check says everything: the length first, then the elements (R100). -/
theorem encodeCheck_cases (n len : Nat) (elem : Lanes) :
    (len ≠ n ∧ encodeCheck n len elem = some .shapeError) ∨
    (len = n ∧ (∃ k < n, 3 < (lane elem k).toNat) ∧ encodeCheck n len elem = some .rangeError) ∨
    (len = n ∧ (∀ k < n, (lane elem k).toNat ≤ 3) ∧ encodeCheck n len elem = none) := by
  by_cases hl : len = n
  · subst hl
    by_cases hr : ∀ k < len, (lane elem k).toNat ≤ 3
    · exact .inr (.inr ⟨rfl, hr, by simp [encodeCheck, lengthCheck_self, rangeCheck_of_inRange hr]⟩)
    · have hr' : ∃ k < len, 3 < (lane elem k).toNat := by simpa using hr
      exact .inr (.inl ⟨rfl, hr', by simp [encodeCheck, lengthCheck_self, rangeCheck_of_outOfRange hr']⟩)
  · exact .inl ⟨hl, by simp [encodeCheck, lengthCheck_ne hl]⟩

end Sys2Proof.Machine
end

