-- ==== Sys2Proof/Laws/State.lean ====
section
/-! SUPPORT. What each operation over the state leaves alone, field by field, so that no proof unfolds a
record update. -/

namespace Sys2Proof.Machine.State

open Sys2Proof

variable (i : Instr) (r : Response) (b : Bool) (s : State)

@[simp] theorem answer_rst : (s.answer i r).rst = s.rst := rfl

@[simp] theorem answer_cmdValid : (s.answer i r).cmdValid = s.cmdValid := rfl

@[simp] theorem answer_cmdReady : (s.answer i r).cmdReady = s.cmdReady := rfl

@[simp] theorem answer_cmd : (s.answer i r).cmd = s.cmd := rfl

@[simp] theorem answer_rsp : (s.answer i r).rsp = s.rsp := rfl

@[simp] theorem answer_rspReady : (s.answer i r).rspReady = s.rspReady := rfl

@[simp] theorem answer_received : (s.answer i r).received = s.received := rfl

@[simp] theorem answer_hostCmds : (s.answer i r).hostCmds = s.hostCmds := rfl

@[simp] theorem answer_hostCycles : (s.answer i r).hostCycles = s.hostCycles := rfl

@[simp] theorem answer_holds : (s.answer i r).holds = s.holds := rfl

@[simp] theorem answer_pending : (s.answer i r).pending = 
    s.pending ++ [{ instr := i, elem := s.cmd.elem, word := s.cmd.word, rsp := r }] := rfl

@[simp] theorem dropInFlight_rst : (s.dropInFlight).rst = s.rst := rfl

@[simp] theorem dropInFlight_cmdValid : (s.dropInFlight).cmdValid = s.cmdValid := rfl

@[simp] theorem dropInFlight_cmdReady : (s.dropInFlight).cmdReady = s.cmdReady := rfl

@[simp] theorem dropInFlight_cmd : (s.dropInFlight).cmd = s.cmd := rfl

@[simp] theorem dropInFlight_rsp : (s.dropInFlight).rsp = none := rfl

@[simp] theorem dropInFlight_rspReady : (s.dropInFlight).rspReady = s.rspReady := rfl

@[simp] theorem dropInFlight_pending : (s.dropInFlight).pending = [] := rfl

@[simp] theorem dropInFlight_received : (s.dropInFlight).received = s.received := rfl

@[simp] theorem dropInFlight_hostCmds : (s.dropInFlight).hostCmds = s.hostCmds := rfl

@[simp] theorem dropInFlight_hostCycles : (s.dropInFlight).hostCycles = s.hostCycles := rfl

@[simp] theorem dropInFlight_holds : (s.dropInFlight).holds = s.holds := rfl

@[simp] theorem takeResponse_rst : (s.takeResponse).rst = s.rst := by
  unfold takeResponse; split <;> rfl

@[simp] theorem takeResponse_cmdValid : (s.takeResponse).cmdValid = s.cmdValid := by
  unfold takeResponse; split <;> rfl

@[simp] theorem takeResponse_cmdReady : (s.takeResponse).cmdReady = s.cmdReady := by
  unfold takeResponse; split <;> rfl

@[simp] theorem takeResponse_cmd : (s.takeResponse).cmd = s.cmd := by
  unfold takeResponse; split <;> rfl

@[simp] theorem takeResponse_rspReady : (s.takeResponse).rspReady = s.rspReady := by
  unfold takeResponse; split <;> rfl

@[simp] theorem takeResponse_pending : (s.takeResponse).pending = s.pending := by
  unfold takeResponse; split <;> rfl

@[simp] theorem takeResponse_hostCmds : (s.takeResponse).hostCmds = s.hostCmds := by
  unfold takeResponse; split <;> rfl

@[simp] theorem takeResponse_hostCycles : (s.takeResponse).hostCycles = s.hostCycles := by
  unfold takeResponse; split <;> rfl

@[simp] theorem takeResponse_holds : (s.takeResponse).holds = s.holds := by
  unfold takeResponse; split <;> rfl

@[simp] theorem present_rst : (s.present).rst = s.rst := by
  unfold present; split <;> (try split) <;> rfl

@[simp] theorem present_cmdValid : (s.present).cmdValid = s.cmdValid := by
  unfold present; split <;> (try split) <;> rfl

@[simp] theorem present_cmd : (s.present).cmd = s.cmd := by
  unfold present; split <;> (try split) <;> rfl

@[simp] theorem present_rspReady : (s.present).rspReady = s.rspReady := by
  unfold present; split <;> (try split) <;> rfl

@[simp] theorem present_received : (s.present).received = s.received := by
  unfold present; split <;> (try split) <;> rfl

@[simp] theorem present_hostCmds : (s.present).hostCmds = s.hostCmds := by
  unfold present; split <;> (try split) <;> rfl

@[simp] theorem present_hostCycles : (s.present).hostCycles = s.hostCycles := by
  unfold present; split <;> (try split) <;> rfl

@[simp] theorem present_cmdReady : (s.present).cmdReady = !s.hold.cmd := by
  unfold present; split <;> (try split) <;> rfl

@[simp] theorem present_holds : (s.present).holds = s.holds.tail := by
  unfold present; split <;> (try split) <;> rfl

@[simp] theorem driveCommand_rst : (s.driveCommand b).rst = s.rst := by
  unfold driveCommand; split <;> (try split) <;> rfl

@[simp] theorem driveCommand_cmdReady : (s.driveCommand b).cmdReady = s.cmdReady := by
  unfold driveCommand; split <;> (try split) <;> rfl

@[simp] theorem driveCommand_rsp : (s.driveCommand b).rsp = s.rsp := by
  unfold driveCommand; split <;> (try split) <;> rfl

@[simp] theorem driveCommand_rspReady : (s.driveCommand b).rspReady = s.rspReady := by
  unfold driveCommand; split <;> (try split) <;> rfl

@[simp] theorem driveCommand_pending : (s.driveCommand b).pending = s.pending := by
  unfold driveCommand; split <;> (try split) <;> rfl

@[simp] theorem driveCommand_received : (s.driveCommand b).received = s.received := by
  unfold driveCommand; split <;> (try split) <;> rfl

@[simp] theorem driveCommand_hostCycles : (s.driveCommand b).hostCycles = s.hostCycles := by
  unfold driveCommand; split <;> (try split) <;> rfl

@[simp] theorem driveCommand_holds : (s.driveCommand b).holds = s.holds := by
  unfold driveCommand; split <;> (try split) <;> rfl

@[simp] theorem driveCycle_cmdValid : (s.driveCycle).cmdValid = s.cmdValid := by
  unfold driveCycle; split <;> rfl

@[simp] theorem driveCycle_cmdReady : (s.driveCycle).cmdReady = s.cmdReady := by
  unfold driveCycle; split <;> rfl

@[simp] theorem driveCycle_cmd : (s.driveCycle).cmd = s.cmd := by
  unfold driveCycle; split <;> rfl

@[simp] theorem driveCycle_rsp : (s.driveCycle).rsp = s.rsp := by
  unfold driveCycle; split <;> rfl

@[simp] theorem driveCycle_pending : (s.driveCycle).pending = s.pending := by
  unfold driveCycle; split <;> rfl

@[simp] theorem driveCycle_received : (s.driveCycle).received = s.received := by
  unfold driveCycle; split <;> rfl

@[simp] theorem driveCycle_hostCmds : (s.driveCycle).hostCmds = s.hostCmds := by
  unfold driveCycle; split <;> rfl

@[simp] theorem driveCycle_holds : (s.driveCycle).holds = s.holds := by
  unfold driveCycle; split <;> rfl

end Sys2Proof.Machine.State
end

