-- ==== Sys2Proof/Laws/Meanings.lean ====
section
/-! SUPPORT. What each instruction answers, one lemma per outcome; provers cite these and do not unfold a
meaning. -/

namespace Sys2Proof.Machine

open Sys2Proof

/-- The answer each instruction gives, by name. -/
def answerOf (elem : Lanes) (word : Word) : Instr → Response
  | .ddec len => ddecResponse len elem
  | .denc len => dencResponse len elem
  | .wdec _ => wdecResponse word
  | .wenc len => wencResponse len elem

/-- Everything `exec` can do: it gives the command on the ports its answer. -/
theorem exec_eq (i : Instr) (s : State) :
    exec i s = .next (s.answer i (answerOf s.cmd.elem s.cmd.word i)) := by
  cases i <;> rfl

theorem ddecResponse_ok (elem : Lanes) : ddecResponse 12 elem = Response.ofElems (dailySlots elem) := rfl

theorem ddecResponse_shape {len : Nat} (h : len ≠ 12) (elem : Lanes) :
    ddecResponse len elem = Response.raise .shapeError := by
  simp [ddecResponse, lengthCheck_ne h]

theorem dencResponse_shape {len : Nat} (h : len ≠ 48) (elem : Lanes) :
    dencResponse len elem = Response.raise .shapeError := by
  simp [dencResponse, encodeCheck, lengthCheck_ne h]

theorem dencResponse_range {elem : Lanes} (h : ∃ k < 48, 3 < (lane elem k).toNat) :
    dencResponse 48 elem = Response.raise .rangeError := by
  simp [dencResponse, encodeCheck, lengthCheck_self, rangeCheck_of_outOfRange h]

theorem dencResponse_ok {elem : Lanes} (h : ∀ k < 48, (lane elem k).toNat ≤ 3) :
    dencResponse 48 elem = Response.ofElems (dailyBytes elem) := by
  simp [dencResponse, encodeCheck, lengthCheck_self, rangeCheck_of_inRange h]

theorem wencResponse_shape {len : Nat} (h : len ≠ 7) (elem : Lanes) :
    wencResponse len elem = Response.raise .shapeError := by
  simp [wencResponse, encodeCheck, lengthCheck_ne h]

theorem wencResponse_range {elem : Lanes} (h : ∃ k < 7, 3 < (lane elem k).toNat) :
    wencResponse 7 elem = Response.raise .rangeError := by
  simp [wencResponse, encodeCheck, lengthCheck_self, rangeCheck_of_outOfRange h]

theorem wencResponse_ok {elem : Lanes} (h : ∀ k < 7, (lane elem k).toNat ≤ 3) :
    wencResponse 7 elem = Response.ofWord (weekWord elem) := by
  simp [wencResponse, encodeCheck, lengthCheck_self, rangeCheck_of_inRange h]

end Sys2Proof.Machine
end

