-- ==== Sys2Proof/Laws/Ops.lean ====
section
/-! SUPPORT. What each part of a clock edge does to the commands in flight and to what the host has
received, said once. -/

namespace Sys2Proof.Machine.State

open Sys2Proof

variable (i : Instr) (r : Response) (b : Bool) (s : State)

@[simp] theorem answer_inFlight :
    (s.answer i r).inFlight =
      s.inFlight ++ [{ instr := i, elem := s.cmd.elem, word := s.cmd.word, rsp := r }] := by
  simp [inFlight]

@[simp] theorem dropInFlight_inFlight : s.dropInFlight.inFlight = [] := by simp [inFlight]

/-- Taking a response moves it from the commands in flight to the host, and loses nothing. -/
theorem takeResponse_kept : s.takeResponse.received ++ s.takeResponse.inFlight = s.received ++ s.inFlight := by
  unfold takeResponse inFlight; split <;> simp

theorem takeResponse_of_delivers {x : Transaction} (h : s.delivers = true) (hx : s.rsp = some x) :
    s.takeResponse.received = s.received ++ [x] ∧ s.takeResponse.rsp = none := by
  simp [takeResponse, h, hx]

theorem takeResponse_of_not_delivers (h : s.delivers = false) : s.takeResponse = s := by
  simp [takeResponse, h]

theorem takeResponse_received_grows : s.received <+: s.takeResponse.received := by
  unfold takeResponse; split <;> simp

/-- Presenting a response keeps the commands in flight and their order. -/
@[simp] theorem present_inFlight : s.present.inFlight = s.inFlight := by
  unfold present inFlight
  split
  next x xs hr hp => split <;> simp [hr, hp]
  next => rfl

theorem present_rsp_of_some {x : Transaction} (h : s.rsp = some x) : s.present.rsp = some x := by
  simp [present, h]

@[simp] theorem driveCommand_inFlight : (s.driveCommand b).inFlight = s.inFlight := by simp [inFlight]

@[simp] theorem driveCycle_inFlight : s.driveCycle.inFlight = s.inFlight := by simp [inFlight]

@[simp] theorem endEdge_inFlight : (s.endEdge b).inFlight = s.inFlight := by simp [endEdge]

@[simp] theorem endEdge_received : (s.endEdge b).received = s.received := by simp [endEdge]

@[simp] theorem endEdge_cmdReady : (s.endEdge b).cmdReady = !s.hold.cmd := by simp [endEdge]

@[simp] theorem endEdge_holds : (s.endEdge b).holds = s.holds.tail := by simp [endEdge]

@[simp] theorem endEdge_rsp : (s.endEdge b).rsp = s.present.rsp := by simp [endEdge]

@[simp] theorem endEdge_pending : (s.endEdge b).pending = s.present.pending := by simp [endEdge]

/-- A command presented and not accepted stays on the ports (R120). -/
theorem driveCommand_held (h : s.cmdValid = true) : s.driveCommand false = s := by
  simp [driveCommand, h]

/-- A command presented and not accepted stays on the ports to the end of the edge (R120). -/
theorem endEdge_held (h : s.cmdValid = true) :
    (s.endEdge false).cmdValid = true ∧ (s.endEdge false).cmd = s.cmd
      ∧ (s.endEdge false).hostCmds = s.hostCmds := by
  have hd : s.present.driveCommand false = s.present := driveCommand_held _ (by simpa using h)
  simp [endEdge, hd, h]

end Sys2Proof.Machine.State
end

