-- ==== Sys2Proof/Laws/PerInstr.lean ====
section
/-! SUPPORT. Facts stated for every instruction, one lemma per constructor. -/

namespace Sys2Proof.Laws.HeaderFits

/-- The encoding of a well-formed instruction is a nine-bit header (R52). -/
def Statement (i : Instr) : Prop :=
  i.WellFormed → encode i < 2 ^ Config.headerBits

theorem shifted_fits {n k : Nat} (hn : n < 2 ^ 7) (hk : k < 2 ^ 9) : n <<< 2 ||| k < 2 ^ 9 :=
  Nat.or_lt_two_pow (by simp only [Nat.shiftLeft_eq]; omega) hk

theorem ddec (len : Nat) : Statement (.ddec len) := fun h => shifted_fits h (by simp [Instr.opcode])

theorem denc (len : Nat) : Statement (.denc len) := fun h => shifted_fits h (by simp [Instr.opcode])

theorem wdec (len : Nat) : Statement (.wdec len) := fun h => shifted_fits h (by simp [Instr.opcode])

theorem wenc (len : Nat) : Statement (.wenc len) := fun h => shifted_fits h (by simp [Instr.opcode])

end Sys2Proof.Laws.HeaderFits
end

