-- ==== Sys2Proof/Laws/Step.lean ====
section
/-! SUPPORT. Everything a step can do, said once. -/

namespace Sys2Proof.Machine

open Sys2Proof

/-- The instruction whose header stands on the command ports. -/
def State.instr (s : State) : Instr :=
  decodeOp s.cmd.op s.cmd.len.toNat

/-- The header on the ports has nine bits, so it is always read (R51, R57). -/
theorem State.decode_header (s : State) : decode s.header = .ok s.instr := by
  have hl : s.cmd.len.toNat < 128 := s.cmd.len.isLt
  have ho : s.cmd.op.toNat < 4 := s.cmd.op.isLt
  have hw : s.header = s.cmd.len.toNat * 4 + s.cmd.op.toNat := header_eq _ _ ho
  rw [decode_of_lt (by omega), State.instr]
  congr 2
  · exact BitVec.eq_of_toNat_eq (by rw [headerOp_toNat]; omega)
  · rw [headerLen_toNat]; omega

theorem State.accepts_eq (s : State) (h : s.rst = false) : s.accepts = (s.cmdValid && s.cmdReady) := by
  simp [State.accepts, h]

/-- The three edges: reset, a command accepted, no command accepted. -/
theorem step_cases (s : State) :
    (s.rst = true ∧ step s = .next (s.dropInFlight.endEdge false)) ∨
    (s.rst = false ∧ s.accepts = true ∧
      step s = .next
        ((s.takeResponse.answer s.instr (answerOf s.cmd.elem s.cmd.word s.instr)).endEdge true)) ∨
    (s.rst = false ∧ s.accepts = false ∧ step s = .next (s.takeResponse.endEdge false)) := by
  cases hr : s.rst
  · cases ha : s.accepts
    · exact .inr (.inr ⟨rfl, rfl, by simp [step, hr, ha]⟩)
    · refine .inr (.inl ⟨rfl, rfl, ?_⟩)
      simp [step, hr, ha, State.decode_header, exec_eq]
  · exact .inl ⟨rfl, by simp [step, hr]⟩

/-- A run of one more step than `n` is the step and then the run. -/
theorem run_of_step {s t : State} (n : Nat) (h : step s = .next t) :
    Host.Core.run core (n + 1) s = Host.Core.run core n t := by
  have hc : core.step s = .next t := h
  simp only [Host.Core.run, hc]

end Sys2Proof.Machine
end

