-- ==== Sys2Proof/Laws/Transaction.lean ====
section
/-! SUPPORT. The functions of the transaction view, one spec lemma each. -/

namespace Sys2Proof.Machine.Tx

open Sys2Proof

theorem fieldAt_eq (v off : Nat) : fieldAt v off = v >>> off % 4 :=
  Nat.and_two_pow_sub_one_eq_mod _ 2

theorem inRange_iff (v : Int) : inRange v = true ↔ 0 ≤ v ∧ v ≤ 3 := by simp [inRange]

theorem all_inRange_iff (s : List Int) : s.all inRange = true ↔ ∀ v ∈ s, 0 ≤ v ∧ v ≤ 3 := by
  simp only [List.all_eq_true, inRange_iff]

theorem slotAt_of_getElem? {s : List Int} {k : Nat} {v : Int} (h : s[k]? = some v) : slotAt s k = v.toNat := by
  rw [slotAt, List.getD_eq_getElem?_getD, h]; rfl

theorem slotAt_congr {s t : List Int} {k : Nat} (h : s[k]? = t[k]?) : slotAt s k = slotAt t k := by
  rw [slotAt, slotAt, List.getD_eq_getElem?_getD, List.getD_eq_getElem?_getD, h]

theorem slotAt_le {n : Nat} {s : List Int} (h : WellFormedSlots n s) (k : Nat) : slotAt s k ≤ 3 := by
  rw [slotAt, List.getD_eq_getElem?_getD]
  cases hk : s[k]? with
  | none => simp
  | some v => have := h.2 v (List.mem_of_getElem? hk); simp; omega

/-- A well-formed slot sequence is the sequence of its slots. -/
theorem getElem?_eq_slotAt {n : Nat} {s : List Int} (h : WellFormedSlots n s) {k : Nat} (hk : k < n) :
    s[k]? = some (slotAt s k : Int) := by
  have hk' : k < s.length := by rw [h.1]; exact hk
  have hv := h.2 _ (List.getElem_mem hk')
  rw [slotAt, List.getD_eq_getElem?_getD, List.getElem?_eq_getElem hk']
  simp; omega

theorem ext_slotAt {n : Nat} {s t : List Int} (hs : WellFormedSlots n s) (ht : WellFormedSlots n t)
    (h : ∀ k < n, slotAt s k = slotAt t k) : s = t := by
  apply List.ext_getElem?
  intro k
  by_cases hk : k < n
  · rw [getElem?_eq_slotAt hs hk, getElem?_eq_slotAt ht hk, h k hk]
  · rw [List.getElem?_eq_none (by rw [hs.1]; omega), List.getElem?_eq_none (by rw [ht.1]; omega)]

/-- A term shifted above another shares no bit with it, so OR is sum. -/
theorem or_shiftLeft {x k : Nat} (a : Nat) (h : x < 2 ^ k) : x ||| a <<< k = x + 2 ^ k * a := by
  rw [Nat.or_comm, Nat.shiftLeft_eq, Nat.mul_comm, ← Nat.two_pow_add_eq_or_of_lt h, Nat.add_comm]

@[simp] theorem packDaily_length (s : List Int) : (packDaily s).length = 12 := by simp [packDaily]

theorem ddec_of_length {b : List Byte} (h : b.length = 12) :
    ddec b = .ok ((List.range 48).map fun k => (fieldAt (b.getD (k / 4) 0).toNat (2 * (k % 4)) : Int)) := by
  simp [ddec, h]

theorem denc_of_wellFormed {s : List Int} (h : WellFormedSlots 48 s) : denc s = .ok (packDaily s) := by
  simp [denc, h.1, (all_inRange_iff s).2 h.2]

theorem wenc_of_wellFormed {s : List Int} (h : WellFormedSlots 7 s) : wenc s = .ok (packWeekly s) := by
  simp [wenc, h.1, (all_inRange_iff s).2 h.2]

end Sys2Proof.Machine.Tx
end

