-- ==== Sys2Proof/Machine/Text.lean ====
section
/-! DEFINITION. The spec's one-line notation for a command and its outcome (R59, decisions D2, D21). It is
naming only: the machine does not use this file. The abbreviations `n*[v]` and `+` are shorthand for the
sequences written out here. -/

namespace Sys2Proof.Machine.Tx

open Sys2Proof

/-- The mnemonic of a command (R3). -/
def Command.mnemonic : Command → String
  | .ddec _ => "DDEC"
  | .denc _ => "DENC"
  | .wdec _ => "WDEC"
  | .wenc _ => "WENC"

/-- Hexadecimal digits of `v`, at least `n` of them. -/
def hex (n v : Nat) : String :=
  let ds := Nat.toDigits 16 v
  "0x" ++ String.ofList (List.replicate (n - ds.length) '0' ++ ds.map Char.toUpper)

/-- A bracketed comma-separated sequence in index order (R59). -/
def bracketed (l : List String) : String :=
  "[" ++ String.intercalate ", " l ++ "]"

/-- A sequence of bytes: hexadecimal elements. -/
def bytesText (b : List Byte) : String :=
  bracketed (b.map fun x => hex 2 x.toNat)

/-- A sequence of slot values: decimal elements. -/
def slotsText (s : List Int) : String :=
  bracketed (s.map toString)

/-- The operand of a command. -/
def Command.operandText : Command → String
  | .ddec b => bytesText b
  | .denc s => slotsText s
  | .wdec n => hex 4 n
  | .wenc s => slotsText s

/-- An outcome: `OK <result>`, or the name of the error. -/
def outcomeText : Result Value → String
  | .ok (.slots s) => "OK " ++ slotsText s
  | .ok (.bytes b) => "OK " ++ bytesText b
  | .ok (.word n) => "OK " ++ hex 4 n
  | .error .shapeError => "ShapeError"
  | .error .rangeError => "RangeError"

/-- A command and its outcome on one line: `<mnemonic> <operand>  =>  <outcome>`. -/
def Command.line (c : Command) : String :=
  c.mnemonic ++ " " ++ c.operandText ++ "  =>  " ++ outcomeText (outcome c)

end Sys2Proof.Machine.Tx
end

