-- ==== Sys2Proof/Tests/Slice0.lean ====
section
/-! SUPPORT. Tests, whose expected results are the vectors of 95_test_vectors.md or worked out from the spec's
encodings by hand, and for every statement with hypotheses a state and operands that meet them. -/

namespace Sys2Proof.Tests

open Sys2Proof Sys2Proof.Machine

/-- Element lanes that begin with `l`, the rest zero. -/
def lanes (l : List Byte) : Lanes :=
  Vector.ofFn fun i => l.getD i 0

/-- A machine with these operands on its ports and nothing in flight. -/
def onPorts (l : List Byte) (word : Nat) : State :=
  { State.reset with cmd := { op := 0, len := 0, elem := lanes l, word := Word.ofNat word } }

/-- The responses in flight after a step or a meaning. -/
def responses : Host.Outcome State Fault Refusal → List Response
  | .next t => t.inFlight.map Transaction.rsp
  | .fault _ => []
  | .refused _ => []

/-- What the ports and the host hold after a step: `cmd_valid`, `cmd_ready`, the presented response and the
received ones. -/
def seen : Host.Outcome State Fault Refusal → Option (Bool × Bool × Option Response × List Response)
  | .next t => some (t.cmdValid, t.cmdReady, t.rsp.map Transaction.rsp, t.received.map Transaction.rsp)
  | .fault _ => none
  | .refused _ => none

/-! ## WellFormed refuses what the header cannot state -/

theorem test_wellFormed_refuses_length_128 :
    ¬(Instr.ddec 128).WellFormed ∧ ¬(Instr.denc 128).WellFormed ∧ ¬(Instr.wdec 128).WellFormed
      ∧ ¬(Instr.wenc 128).WellFormed := by decide

theorem test_wellFormed_takes_length_127 : (Instr.ddec 127).WellFormed ∧ (Instr.wenc 0).WellFormed := by decide

/-! ## The widths are those of R9 and R10 -/

theorem test_widths : Byte = BitVec Config.byteBits ∧ Byte = BitVec Config.elemW ∧ Slot = BitVec Config.slotBits
    ∧ Config.weeklyBits ≤ Config.wWordDefault ∧ Config.slotsPerByte * Config.slotBits = Config.byteBits
    ∧ Config.nDBytes * Config.slotsPerByte = Config.nDaily
    ∧ Config.nWeekly * Config.slotBits = Config.weeklyBits := by
  exact ⟨rfl, rfl, rfl, by decide, by decide, by decide, by decide⟩

/-! ## Headers, written out as `lllllll` then the code of R51 -/

theorem test_decode_ddec : decode 0b000110000 = .ok (.ddec 12) := by decide

theorem test_decode_denc : decode 0b011000001 = .ok (.denc 48) := by decide

theorem test_decode_wdec : decode 0b111111110 = .ok (.wdec 127) := by decide

theorem test_decode_wenc : decode 0b000011111 = .ok (.wenc 7) := by decide

theorem test_decode_rejects_bit_9 : decode 0b1000011111 = .error .widerThanHeader := by decide

theorem test_encode : encode (.denc 48) = 0x0C1 ∧ encode (.wenc 7) = 0x01F ∧ encode (.ddec 13) = 0x034 := by decide

/-- The table's own words, decoded and run as the first command after reset: lengths of zero. -/
theorem test_table_words :
    decodeTableWord 16 0x000 = some (.ddec 0) ∧ decodeTableWord 16 0x001 = some (.denc 0)
      ∧ decodeTableWord 16 0x002 = some (.wdec 0) ∧ decodeTableWord 16 0x003 = some (.wenc 0) := by decide

theorem test_table_words_run :
    responses (step (State.reset.withFetchWord 16 0x000)) = [⟨.shapeError, [], none⟩]
      ∧ responses (step (State.reset.withFetchWord 16 0x001)) = [⟨.shapeError, [], none⟩]
      ∧ responses (step (State.reset.withFetchWord 16 0x002)) = [⟨.ok, [0, 0, 0, 0, 0, 0, 0], none⟩]
      ∧ responses (step (State.reset.withFetchWord 16 0x003)) = [⟨.shapeError, [], none⟩] := by decide

/-! ## The four operations -/

/-- DV-DD8. -/
theorem test_ddec_mixed_bytes :
    responses (exec (.ddec 12)
      (onPorts [0x00, 0x01, 0x1B, 0xE4, 0xFF, 0x80, 0x55, 0xAA, 0x39, 0x6C, 0xC3, 0x7E] 0))
    = [⟨.ok, [0,0,0,0,1,0,0,0,3,2,1,0,0,1,2,3,3,3,3,3,0,0,0,2,1,1,1,1,2,2,2,2,1,2,3,0,0,3,2,1,3,0,0,3,2,3,3,1],
        none⟩] := by decide

/-- DV-DD11, DV-DD12 and a length beyond the lanes. -/
theorem test_ddec_lengths :
    responses (exec (.ddec 13) (onPorts (List.replicate 13 0xFF) 0)) = [⟨.shapeError, [], none⟩]
      ∧ responses (exec (.ddec 48) (onPorts [] 0)) = [⟨.shapeError, [], none⟩]
      ∧ responses (exec (.ddec 127) (onPorts [] 0)) = [⟨.shapeError, [], none⟩] := by decide

/-- The schedule `S8` of DV-D12. -/
def S8 : List Byte :=
  [2,1,3,2,2,1,2,1,2,3,1,2,3,3,1,1,3,1,1,1,1,2,0,0,2,3,0,0,1,3,1,3,1,0,1,3,3,0,1,0,0,2,2,1,1,3,2,1]

/-- DV-D12. -/
theorem test_denc_schedule :
    responses (exec (.denc 48) (onPorts S8 0))
    = [⟨.ok, [0xB6, 0x66, 0x9E, 0x5F, 0x57, 0x09, 0x0E, 0xDD, 0xD1, 0x13, 0x68, 0x6D], none⟩] := by decide

/-- DV-D18, DV-D19, DV-D23: 4 in the last lane, -1 in the first, and a wrong length with a bad element. -/
theorem test_denc_errors :
    responses (exec (.denc 48) (onPorts (List.replicate 47 0 ++ [4]) 0)) = [⟨.rangeError, [], none⟩]
      ∧ responses (exec (.denc 48) (onPorts [0xFF] 0)) = [⟨.rangeError, [], none⟩]
      ∧ responses (exec (.denc 47) (onPorts (List.replicate 47 4) 0)) = [⟨.shapeError, [], none⟩] := by decide

/-- DV-WD16: garbage high bits. -/
theorem test_wdec_high_bits :
    responses (exec (.wdec 99) (onPorts [0xFF] 0xE013)) = [⟨.ok, [3, 0, 1, 0, 0, 0, 2], none⟩] := by decide

/-- DV-WD10. -/
theorem test_wdec_descending :
    responses (exec (.wdec 0) (onPorts [] 0x1B1B)) = [⟨.ok, [3, 2, 1, 0, 3, 2, 1], none⟩] := by decide

/-- DV-W6 and DV-W5; lanes at and beyond 7 are ignored (R25). -/
theorem test_wenc_words :
    responses (exec (.wenc 7) (onPorts [3, 0, 1, 0, 0, 0, 2, 0xFF] 0xFFFF)) = [⟨.ok, [], some (Word.ofNat 0x2013)⟩]
      ∧ responses (exec (.wenc 7) (onPorts [0, 0, 0, 0, 0, 0, 3] 0)) = [⟨.ok, [], some (Word.ofNat 0x3000)⟩] := by decide

/-- DV-W17, DV-W20, DV-W15. -/
theorem test_wenc_errors :
    responses (exec (.wenc 7) (onPorts [0, 0, 0, 0, 0, 0, 4] 0)) = [⟨.rangeError, [], none⟩]
      ∧ responses (exec (.wenc 6) (onPorts [0, 0, 0, 0, 0, 9] 0)) = [⟨.shapeError, [], none⟩]
      ∧ responses (exec (.wenc 8) (onPorts [3, 0, 1, 0, 0, 0, 0, 2] 0)) = [⟨.shapeError, [], none⟩] := by decide

/-! ## The transaction view, on integers the ports cannot carry -/

/-- DV-D19, DV-D20 and a magnitude beyond eight bits. -/
theorem test_tx_denc_out_of_range :
    Tx.denc ((-1 : Int) :: List.replicate 47 0) = .error .rangeError
      ∧ Tx.denc (List.replicate 47 0 ++ [255]) = .error .rangeError
      ∧ Tx.denc (List.replicate 47 0 ++ [256]) = .error .rangeError := by decide

/-- DV-W6, DV-W18, DV-WD16 and a word beyond sixteen bits. -/
theorem test_tx_weekly :
    Tx.wenc [3, 0, 1, 0, 0, 0, 2] = .ok 0x2013 ∧ Tx.wenc [-1, 0, 0, 0, 0, 0, 0] = .error .rangeError
      ∧ Tx.wdec 0xE013 = .ok [3, 0, 1, 0, 0, 0, 2] ∧ Tx.wdec 0xABC02013 = .ok [3, 0, 1, 0, 0, 0, 2] := by decide

/-- DV-D3. -/
theorem test_tx_denc_corrected_example :
    Tx.denc ([1, 2, 3, 0] ++ List.replicate 44 0) = .ok (0x39 :: List.replicate 11 0x00) := by decide

/-- The notation of R59, on DV-W6, a `WENC` of length 2 and DV-WD14. -/
theorem test_tx_text :
    (Tx.Command.wenc [3, 0, 1, 0, 0, 0, 2]).line = "WENC [3, 0, 1, 0, 0, 0, 2]  =>  OK 0x2013"
      ∧ (Tx.Command.wenc [0, -1]).line = "WENC [0, -1]  =>  ShapeError"
      ∧ (Tx.Command.wdec 0xC000).line = "WDEC 0xC000  =>  OK [0, 0, 0, 0, 0, 0, 0]" := by decide

/-! ## One edge -/

/-- Program P2 step 2: the header `0x002` and the word `0x2013` on the ports; the answer is presented. -/
theorem test_step_wdec :
    seen (step ((onPorts [] 0x2013).withFetchWord 16 0x002))
      = some (false, true, some ⟨.ok, [3, 0, 1, 0, 0, 0, 2], none⟩, []) := by decide

/-- A machine that presents the answer of a `WDEC` of zero and has one more behind it, and a `WENC` command
on its ports. -/
def busy : State :=
  let t : Transaction := ⟨.wdec 0, lanes [], Word.ofNat 0, ⟨.ok, [0, 0, 0, 0, 0, 0, 0], none⟩⟩
  { onPorts [3, 0, 1, 0, 0, 0, 2] 0 with
    cmdValid := true
    cmd := { op := 0b11, len := 7, elem := lanes [3, 0, 1, 0, 0, 0, 2], word := Word.ofNat 0 }
    rsp := some t
    pending := [t] }

/-- With `rst` at 1 both commands in flight are dropped and the one presented stays (R115, R120). -/
theorem test_step_reset_drops :
    seen (step { busy with rst := true, rspReady := true, cmdReady := true }) = some (true, true, none, []) := by
  decide

/-- The host takes the response, the next is presented, and the command is accepted, all at one edge. -/
theorem test_step_takes_and_accepts :
    seen (step { busy with rspReady := true, cmdReady := true })
      = some (false, true, some ⟨.ok, [0, 0, 0, 0, 0, 0, 0], none⟩, [⟨.ok, [0, 0, 0, 0, 0, 0, 0], none⟩])
    ∧ responses (step { busy with rspReady := true, cmdReady := true })
      = [⟨.ok, [0, 0, 0, 0, 0, 0, 0], none⟩, ⟨.ok, [], some (Word.ofNat 0x2013)⟩] := by decide

/-- Nothing ready: the response and the command stay, and the implementation may hold `cmd_ready` low. -/
theorem test_step_holds :
    seen (step { busy with holds := [{ cmd := true, rsp := true }] })
      = some (true, false, some ⟨.ok, [0, 0, 0, 0, 0, 0, 0], none⟩, []) := by decide

/-- The host's plan: the next command goes on the ports when this one is accepted. -/
theorem test_step_next_command :
    (match step { busy with cmdReady := true, hostCmds := [some Command.zero] } with
      | .next t => decide (t.cmdValid = true ∧ t.cmd = Command.zero ∧ t.hostCmds = [])
      | _ => false) = true := by decide

/-! ## Witnesses: every statement's hypotheses are met, at a boundary of each range -/

theorem witness_wellFormed_instruction : (Instr.wenc 127).WellFormed ∧ (Instr.ddec 0).WellFormed := by decide

theorem witness_nine_bit_numbers : 511 < 512 ∧ 512 ≤ 512 ∧ decode 511 = .ok (.wenc 127) := by decide

theorem witness_wrong_lengths : 11 ≠ 12 ∧ 13 ≠ 12 ∧ 47 ≠ 48 ∧ 49 ≠ 48 ∧ 6 ≠ 7 ∧ 8 ≠ 7 ∧ 0 ≠ 7 := by decide

theorem witness_slots_in_range :
    (∀ k < 48, (lane (onPorts (List.replicate 48 3) 0).cmd.elem k).toNat ≤ 3)
      ∧ ∀ d < 7, (lane (onPorts (List.replicate 7 3) 0).cmd.elem d).toNat ≤ 3 := by decide

theorem witness_slot_out_of_range :
    (∃ k < 48, 3 < (lane (onPorts (List.replicate 47 0 ++ [4]) 0).cmd.elem k).toNat)
      ∧ ∃ d < 7, 3 < (lane (onPorts [4] 0).cmd.elem d).toNat :=
  ⟨⟨47, by decide, by decide⟩, ⟨0, by decide, by decide⟩⟩

/-- Both clauses on a response's shape: a success and an error. -/
theorem witness_success_and_error :
    responses (exec (.ddec 12) (onPorts [] 0)) = [⟨.ok, List.replicate 48 0, none⟩]
      ∧ responses (exec (.ddec 11) (onPorts [] 0)) = [⟨.shapeError, [], none⟩] := by decide

/-- States that differ only in unused inputs. -/
theorem witness_unused_inputs :
    (∀ j < min 12 48, lane (onPorts [] 0).cmd.elem j
        = lane (onPorts (List.replicate 12 0 ++ [0xFF]) 0xFFFF).cmd.elem j)
      ∧ (onPorts [] 5).cmd.word = (onPorts [0xFF] 5).cmd.word := by decide

/-- The ports of `WENC` stand for a transaction-view operand, with either reading of an element; `DDEC` and
`DENC` beyond the lanes, and `WDEC`, as well. -/
theorem witness_presents_wenc :
    Presents (.wenc 7) (lanes [3, 0xFF, 4]) (Word.ofNat 0) (.wenc [3, -1, 4, 0, 0, 0, 0]) := by
  refine ⟨rfl, fun j hj => ?_⟩
  have h7 : j < 7 := by simpa using hj
  interval_cases j <;> first | exact ⟨_, rfl, .inl rfl⟩ | exact ⟨_, rfl, .inr rfl⟩

theorem witness_presents_others :
    Presents (.ddec 49) (lanes []) (Word.ofNat 0) (.ddec (List.replicate 48 0 ++ [0xFF]))
      ∧ Presents (.denc 127) (lanes [0xFF]) (Word.ofNat 0) (.denc (-1 :: List.replicate 126 0))
      ∧ Presents (.ddec 0) (lanes []) (Word.ofNat 0) (.ddec [])
      ∧ Presents (.denc 0) (lanes []) (Word.ofNat 0) (.denc [])
      ∧ Presents (.wdec 3) (lanes []) (Word.ofNat 0xFFFF) (.wdec (Word.ofNat 0xFFFF).bits.toNat) := by
  refine ⟨⟨rfl, by decide⟩, ⟨rfl, fun j hj => ?_⟩, ⟨rfl, by decide⟩,
    ⟨rfl, fun j hj => absurd hj (by omega)⟩, rfl⟩
  have h48 : j < 48 := by simpa using hj
  cases j with
  | zero => exact ⟨-1, rfl, .inr rfl⟩
  | succ k =>
    have hz : ∀ k < 47, (lane (lanes [0xFF]) (k + 1)).toNat = 0 := by decide
    have hget : (List.replicate 126 (0 : Int))[k]? = some 0 := by
      rw [List.getElem?_replicate, if_pos (by omega)]
    exact ⟨0, hget, .inl (by rw [hz k (by omega)]; rfl)⟩

theorem witness_readings_of_an_element : StandsFor 0xFF (-1) ∧ StandsFor 0xFF 255 ∧ StandsFor 3 3 := by decide

theorem witness_word_widths : 14 ≤ 14 ∧ 14 ≤ Config.wWordDefault := by decide

/-- Lanes that carry the slots of a decode result. -/
theorem witness_slots_presented_again :
    (∀ k < 48, (dailySlots (lanes [0x39]))[k]? = some (lane (lanes [1, 2, 3, 0]) k))
      ∧ ∀ d < 7, (weeklySlots (0x2013 : BitVec 14))[d]? = some (lane (lanes [3, 0, 1, 0, 0, 0, 2]) d) := by decide

theorem witness_accepting_edge :
    busy.rst = false ∧ busy.cmdValid = true ∧ { busy with cmdReady := true }.cmdReady = true
      ∧ decode (busy.cmd.len.toNat * 4 + busy.cmd.op.toNat) = .ok (.wenc 7) := by decide

theorem witness_reset_edge : { busy with rst := true }.rst = true ∧ busy.cmdValid = true := by decide

theorem witness_response_edges :
    busy.rst = false ∧ busy.rsp.isSome = true ∧ busy.rspReady = false
      ∧ { busy with rspReady := true }.rspReady = true := by decide

theorem witness_stalled_edge : busy.rst = false ∧ busy.cmdValid = true ∧ busy.cmdReady = false := by decide

theorem witness_invariant_step :
    Safety.EveryAnswerIsItsOwn State.reset ∧ ∃ t, step State.reset = .next t := by
  exact ⟨fun t ht => absurd ht (by simp [State.reset, State.inFlight]), _, rfl⟩

theorem witness_host_without_reset :
    Safety.NoReset
      { busy with
        hostCmds := [none, some Command.zero]
        hostCycles := [⟨false, false⟩]
        holds := [⟨true, true⟩] } := by decide

theorem witness_operand_lengths :
    (List.replicate 12 (0xFF : Byte)).length = 12 ∧ (List.replicate 11 (0 : Byte)).length ≠ 12
      ∧ (List.replicate 48 (4 : Int)).length = 48 ∧ (∃ v ∈ List.replicate 48 (4 : Int), v < 0 ∨ v > 3)
      ∧ (∃ v ∈ [0, 0, 0, 0, 0, 0, (-1 : Int)], v < 0 ∨ v > 3) ∧ (List.replicate 8 (0 : Int)).length ≠ 7 := by decide

theorem witness_wellFormed_schedules :
    Tx.WellFormedSlots 48 (List.replicate 48 3) ∧ Tx.WellFormedSlots 7 (List.replicate 7 3)
      ∧ Tx.WellFormedSlots 7 [0, 1, 2, 3, 0, 1, 2] ∧ 0x3FFF ≤ 0x3FFF := by decide

/-- Well-formed daily sequences that differ only at slot 47, the last. -/
theorem witness_daily_slots_differ :
    Tx.WellFormedSlots 48 (List.replicate 47 0 ++ [3]) ∧ Tx.WellFormedSlots 48 (List.replicate 47 0 ++ [0])
      ∧ (∀ j, j ≠ 47 → (List.replicate 47 (0 : Int) ++ [3])[j]? = (List.replicate 47 (0 : Int) ++ [0])[j]?)
      ∧ Tx.denc (List.replicate 47 0 ++ [3]) = .ok (List.replicate 11 0 ++ [0xC0])
      ∧ Tx.denc (List.replicate 47 0 ++ [0]) = .ok (List.replicate 11 0 ++ [0x00]) := by
  refine ⟨by decide, by decide, fun j hj => ?_, by decide, by decide⟩
  by_cases h : j < 47
  · rw [List.getElem?_append_left (by simpa using h), List.getElem?_append_left (by simpa using h)]
  · rw [List.getElem?_eq_none (by simp; omega), List.getElem?_eq_none (by simp; omega)]

/-- Byte sequences that differ only inside the field of slot 47: byte 11, bits 7..6. -/
theorem witness_daily_bytes_differ :
    (∀ i, i ≠ 47 / 4 → (List.replicate 11 (0 : Byte) ++ [0xC0])[i]? = (List.replicate 11 (0 : Byte) ++ [0])[i]?)
      ∧ (∀ n, n ≠ 2 * (47 % 4) → n ≠ 2 * (47 % 4) + 1 → (0xC0 : Byte).getLsbD n = (0 : Byte).getLsbD n)
      ∧ (List.replicate 11 (0 : Byte) ++ [0xC0])[47 / 4]? = some 0xC0
      ∧ Tx.ddec (List.replicate 11 0 ++ [0xC0]) = .ok (List.replicate 47 0 ++ [3]) := by
  refine ⟨fun i hi => ?_, fun n h6 h7 => ?_, by decide, by decide⟩
  · by_cases h : i < 11
    · rw [List.getElem?_append_left (by simpa using h), List.getElem?_append_left (by simpa using h)]
    · rw [List.getElem?_eq_none (by simp; omega), List.getElem?_eq_none (by simp; omega)]
  · by_cases h : n < 8
    · interval_cases n <;> first | decide | omega
    · rw [BitVec.getLsbD_of_ge _ _ (by omega), BitVec.getLsbD_of_ge _ _ (by omega)]

/-- Weekly sequences that differ only at day 6, and their words. -/
theorem witness_weekly_lanes_differ :
    (∀ j, j ≠ 6 → ([0, 0, 0, 0, 0, 0, 3] : List Int)[j]? = ([0, 0, 0, 0, 0, 0, 0] : List Int)[j]?)
      ∧ (∀ n, n ≠ 2 * 6 → n ≠ 2 * 6 + 1 → (0x3000 : Nat).testBit n = (0 : Nat).testBit n)
      ∧ Tx.WellFormedSlots 7 [0, 0, 0, 0, 0, 0, 3] ∧ Tx.WellFormedSlots 7 [0, 0, 0, 0, 0, 0, 0]
      ∧ Tx.wenc [0, 0, 0, 0, 0, 0, 3] = .ok 0x3000 ∧ Tx.wenc [0, 0, 0, 0, 0, 0, 0] = .ok 0
      ∧ Tx.wdec 0x3000 = .ok [0, 0, 0, 0, 0, 0, 3] ∧ Tx.wdec 0 = .ok [0, 0, 0, 0, 0, 0, 0] := by
  refine ⟨fun j hj => ?_, fun n h1 h2 => ?_, by decide, by decide, by decide, by decide, by decide, by decide⟩
  · by_cases h : j < 7
    · interval_cases j <;> first | rfl | exact absurd rfl hj
    · rw [List.getElem?_eq_none (by simpa using h), List.getElem?_eq_none (by simpa using h)]
  · by_cases h : n < 14
    · interval_cases n <;> first | decide | omega
    · rw [Nat.testBit_lt_two_pow (Nat.lt_of_lt_of_le (show 0x3000 < 2 ^ 14 by decide)
        (Nat.pow_le_pow_right (by decide) (by omega))), Nat.zero_testBit]

/-- An element out of range at an index of a sequence of the right length. -/
theorem witness_one_bad_element :
    ([0, 0, 0, 0, 0, 0, -1] : List Int)[6]? = some (-1) ∧ ((-1 : Int) < 0)
      ∧ (List.replicate 47 (0 : Int) ++ [4])[47]? = some 4 ∧ (4 : Int) > 3
      ∧ (List.replicate 47 (0 : Int) ++ [4]).length = 48 := by decide

theorem witness_shifted_slots : 3 ≤ 3 ∧ (0 : Nat) ≠ 6 ∧ (11 : Nat) < 12 := by decide

theorem witness_decoded_sequences :
    Tx.ddec (List.replicate 12 0xFF) = .ok (List.replicate 48 3) ∧ Tx.wdec 0xFFFF = .ok (List.replicate 7 3) := by
  decide

end Sys2Proof.Tests
end

section
/-! PROOF. The weekly port operations against the transaction view, at every word width (R10, R71, R77). -/

namespace Sys2Proof.Machine

open Sys2Proof

/-- No weekly field reaches bit 14, so the slots depend on the low fourteen bits alone (R71). -/
theorem weeklySlots_congr {v w : Nat} {P : BitVec v} {Q : BitVec w} (h : P.toNat % 2 ^ 14 = Q.toNat % 2 ^ 14) :
    weeklySlots P = weeklySlots Q :=
  List.map_congr_left fun d hd => by
    have hd7 : d < 7 := by simpa using hd
    rw [slotByte_field, slotByte_field]
    congr 1
    simp only [Nat.shiftRight_eq_div_pow]
    interval_cases d <;> omega

theorem and_weeklyMask_toNat {w : Nat} (hw : 14 ≤ w) (P : BitVec w) : (P &&& 0x3FFF).toNat = P.toNat % 2 ^ 14 := by
  have hmask : (0x3FFF : BitVec w).toNat = 2 ^ 14 - 1 :=
    Nat.mod_eq_of_lt (Nat.lt_of_lt_of_le (by decide) (Nat.pow_le_pow_right (by decide) hw))
  rw [BitVec.toNat_and, hmask, Nat.and_two_pow_sub_one_eq_mod]

/-- The unused bits of a weekly word change no slot (R71). -/
theorem weeklySlots_and_weeklyMask {w : Nat} (hw : 14 ≤ w) (P : BitVec w) :
    weeklySlots (P &&& 0x3FFF) = weeklySlots P :=
  weeklySlots_congr (by rw [and_weeklyMask_toNat hw, Nat.mod_mod])

/-- The slots on the result elements are those `Tx.wdec` lists, each zero extended (R55, R70). -/
theorem weeklySlots_eq_map_fieldAt {w : Nat} (P : BitVec w) :
    weeklySlots P =
      ((List.range 7).map fun d => (Tx.fieldAt P.toNat (2 * d) : Int)).map (BitVec.ofInt 8) := by
  rw [weeklySlots, List.map_map]
  refine List.map_congr_left fun d _ => ?_
  rw [slotByte_field, Function.comp_apply, Tx.fieldAt_eq, BitVec.ofInt_natCast]

theorem take_lanes_eq {n : Nat} (hn : n ≤ 48) (elem : Lanes) : elem.toList.take n = (List.range n).map (lane elem) := by
  apply List.ext_getElem?
  intro d
  by_cases hd : d < n
  · rw [List.getElem?_take_of_lt hd, lane_getElem? elem (by omega), List.getElem?_map, List.getElem?_range hd,
      Option.map_some]
  · rw [List.getElem?_eq_none (by simp; omega), List.getElem?_eq_none (by simp; omega)]

/-- In-range lanes present a well-formed slot sequence. -/
theorem take_lanes_wellFormed {n : Nat} (hn : n ≤ 48) {elem : Lanes} (h : ∀ d < n, (lane elem d).toNat ≤ 3) :
    Tx.WellFormedSlots n ((elem.toList.take n).map fun e => (e.toNat : Int)) := by
  simp only [take_lanes_eq hn, List.map_map]
  refine ⟨by simp, fun v hv => ?_⟩
  obtain ⟨d, hd, rfl⟩ := List.mem_map.1 hv
  exact ⟨Int.natCast_nonneg _, Int.ofNat_le.2 (h d (List.mem_range.1 hd))⟩

theorem slotAt_take_lanes {n : Nat} (hn : n ≤ 48) (elem : Lanes) {d : Nat} (hd : d < n) :
    Tx.slotAt ((elem.toList.take n).map fun e => (e.toNat : Int)) d = (lane elem d).toNat :=
  Tx.slotAt_of_getElem? (v := ((lane elem d).toNat : Int)) (by
    simp [take_lanes_eq hn, List.getElem?_range hd])

/-- Packing slots in [0,3] one after the other fills `2n` bits and is their weighted sum: each shifted slot lies
above those packed before it (R74, R86). -/
theorem Tx.foldl_or_slots {s : List Int} {n : Nat} (h : ∀ d < n, slotAt s d ≤ 3) :
    (List.range n).foldl (fun v d => v ||| slotAt s d <<< (2 * d)) 0 = ∑ d ∈ Finset.range n, 2 ^ (2 * d) * slotAt s d
      ∧ ∑ d ∈ Finset.range n, 2 ^ (2 * d) * slotAt s d < 2 ^ (2 * n) := by
  induction n with
  | zero => simp
  | succ n ih =>
    obtain ⟨hfold, hlt⟩ := ih fun d hd => h d (by omega)
    have hn : 2 ^ (2 * n) * slotAt s n ≤ 2 ^ (2 * n) * 3 := Nat.mul_le_mul_left _ (h n (by omega))
    have hpow : 2 ^ (2 * (n + 1)) = 2 ^ (2 * n) * 4 := Nat.pow_add 2 (2 * n) 2
    rw [List.range_succ, List.foldl_append, hfold, List.foldl_cons, List.foldl_nil, or_shiftLeft _ hlt,
      Finset.sum_range_succ]
    exact ⟨rfl, by omega⟩

theorem Tx.packWeekly_eq_sum {s : List Int} (h : ∀ d < 7, slotAt s d ≤ 3) :
    packWeekly s = ∑ d ∈ Finset.range 7, 2 ^ (2 * d) * slotAt s d :=
  (foldl_or_slots h).1

theorem packWeek_eq_sum {elem : Lanes} (h : ∀ d < 7, (lane elem d).toNat ≤ 3) :
    (packWeek elem).toNat = ∑ d ∈ Finset.range 7, 2 ^ (2 * d) * (lane elem d).toNat := by
  have hmod : ∀ d < 7, (lane elem d).toNat % 4 = (lane elem d).toNat :=
    fun d hd => Nat.mod_eq_of_lt (Nat.lt_succ_of_le (h d hd))
  simp [packWeek_toNat, Finset.sum_range_succ, hmod]

/-- For in-range lanes the transaction view packs the fourteen bits that the port packs (R77, R78). -/
theorem packWeekly_take_lanes {elem : Lanes} (h : ∀ d < 7, (lane elem d).toNat ≤ 3) :
    Tx.packWeekly ((elem.toList.take 7).map fun e => (e.toNat : Int)) = (packWeek elem).toNat := by
  have hslot : ∀ d < 7, Tx.slotAt ((elem.toList.take 7).map fun e => (e.toNat : Int)) d = (lane elem d).toNat :=
    fun d hd => slotAt_take_lanes (by decide) elem hd
  rw [Tx.packWeekly_eq_sum fun d hd => (hslot d hd).trans_le (h d hd), packWeek_eq_sum h]
  exact Finset.sum_congr rfl fun d hd => by rw [hslot d (Finset.mem_range.1 hd)]

/-- Settles O19: both sides read and write the low fourteen bits alone, whatever the width above them. -/
theorem weeklyPortsServeEveryWordWidth : Obligations.WeeklyPortsServeEveryWordWidth := by
  unfold Obligations.WeeklyPortsServeEveryWordWidth
  refine ⟨wWord_ge, fun word => ?_, fun elem h => ?_, fun w hw => ⟨fun P => ?_, fun elem h => ⟨?_, ?_⟩⟩⟩
  · rw [wdecResponse, weeklySlots_bits]
  · exact ⟨weekWord elem, wencResponse_ok h, weekWord_bits elem⟩
  · exact ⟨_, rfl, weeklySlots_eq_map_fieldAt P, weeklySlots_and_weeklyMask hw P⟩
  · rw [Tx.wenc_of_wellFormed (take_lanes_wellFormed (by decide) h), packWeekly_take_lanes h, weeklyWord_toNat hw]
  · rw [weeklyWord_toNat hw]
    exact (packWeek elem).isLt

end Sys2Proof.Machine
end

section
/-! PROOF. The port view refines the transaction view: the command on the ports gets the outcome of whichever
transaction-view command it stands for (R11, R24, R53). -/

namespace Sys2Proof.Machine

open Sys2Proof

/-! What the transaction view answers when a check fails (R61, R65, R66, R75, R76). -/

theorem Tx.ddec_shape {b : List Byte} (h : b.length ≠ 12) : ddec b = .error .shapeError := if_pos h

theorem Tx.denc_shape {s : List Int} (h : s.length ≠ 48) : denc s = .error .shapeError := if_pos h

theorem Tx.wenc_shape {s : List Int} (h : s.length ≠ 7) : wenc s = .error .shapeError := if_pos h

theorem Tx.denc_range {s : List Int} (hlen : s.length = 48) (h : s.all inRange = false) :
    denc s = .error .rangeError := by
  simp [denc, hlen, h]

theorem Tx.wenc_range {s : List Int} (hlen : s.length = 7) (h : s.all inRange = false) :
    wenc s = .error .rangeError := by
  simp [wenc, hlen, h]

/-- Both readings of an element give the range test one verdict (R53). -/
theorem StandsFor.inRange_iff {e : Byte} {v : Int} (h : StandsFor e v) : Tx.inRange v = true ↔ e.toNat ≤ 3 := by
  have he : e.toNat < 256 := e.isLt
  rw [Tx.inRange_iff]
  rcases h with rfl | rfl
  · omega
  · rw [BitVec.toInt_eq_toNat_cond]
    split <;> omega

/-- An in-range element is the same integer by either reading (R53). -/
theorem StandsFor.eq_toNat {e : Byte} {v : Int} (h : StandsFor e v) (he : e.toNat ≤ 3) : v = (e.toNat : Int) := by
  rcases h with rfl | rfl
  · rfl
  · exact BitVec.toInt_eq_toNat_of_lt (by omega)

/-- The lanes stand for the encode operand `opnd`, each for its element by either reading (R22, R53). -/
def LanesPresent (len : Nat) (elem : Lanes) (opnd : List Int) : Prop :=
  opnd.length = len ∧ ∀ j < min len 48, ∃ v, opnd[j]? = some v ∧ StandsFor (lane elem j) v

theorem presents_denc_iff {len : Nat} {elem : Lanes} {word : Word} {opnd : List Int} :
    Presents (.denc len) elem word (.denc opnd) ↔ LanesPresent len elem opnd := Iff.rfl

theorem presents_wenc_iff {len : Nat} {elem : Lanes} {word : Word} {opnd : List Int} :
    Presents (.wenc len) elem word (.wenc opnd) ↔ LanesPresent len elem opnd := Iff.rfl

/-- The lanes read as unsigned are an operand; an element beyond the last lane is 0. -/
theorem lanesPresent_unsigned (len : Nat) (elem : Lanes) :
    LanesPresent len elem ((List.range len).map fun j => ((lane elem j).toNat : Int)) :=
  ⟨by simp, fun j hj => ⟨_, by simp [List.getElem?_range (lt_min_iff.1 hj).1], .inl rfl⟩⟩

theorem LanesPresent.getElem? {n : Nat} {elem : Lanes} {opnd : List Int} (hn : n ≤ 48)
    (h : LanesPresent n elem opnd) {k : Nat} (hk : k < n) : ∃ v, opnd[k]? = some v ∧ StandsFor (lane elem k) v :=
  h.2 k (lt_min hk (by omega))

/-- In-range lanes leave no choice of reading: the operand is theirs as natural numbers. -/
theorem LanesPresent.eq_take_lanes {n : Nat} {elem : Lanes} {opnd : List Int} (hn : n ≤ 48)
    (h : LanesPresent n elem opnd) (hr : ∀ k < n, (lane elem k).toNat ≤ 3) :
    opnd = (elem.toList.take n).map fun e => (e.toNat : Int) := by
  have hlen : opnd.length = n := h.1
  apply List.ext_getElem?
  intro k
  by_cases hk : k < n
  · obtain ⟨v, hget, hv⟩ := h.getElem? hn hk
    simp [hget, hv.eq_toNat (hr k hk), take_lanes_eq hn, List.getElem?_range hk]
  · rw [List.getElem?_eq_none (by omega), List.getElem?_eq_none (by simp; omega)]

/-- A lane out of range is an operand element out of range, by either reading. -/
theorem LanesPresent.all_inRange_eq_false {n : Nat} {elem : Lanes} {opnd : List Int} (hn : n ≤ 48)
    (h : LanesPresent n elem opnd) (hr : ∃ k < n, 3 < (lane elem k).toNat) : opnd.all Tx.inRange = false := by
  obtain ⟨k, hk, hgt⟩ := hr
  obtain ⟨v, hget, hv⟩ := h.getElem? hn hk
  exact List.all_eq_false.2 ⟨v, List.mem_of_getElem? hget, fun hin => by
    have hle := hv.inRange_iff.1 hin
    omega⟩

/-- Four slots in [0,3], each shifted above those before it, OR to their weighted sum (R49, R64). -/
theorem Tx.or_four_slots {a b c d : Nat} (ha : a ≤ 3) (hb : b ≤ 3) (hc : c ≤ 3) :
    a ||| b <<< 2 ||| c <<< 4 ||| d <<< 6 = a + 4 * b + 16 * c + 64 * d := by
  have h2 : a ||| b <<< 2 = a + 4 * b := or_shiftLeft b (by omega)
  have h4 : (a + 4 * b) ||| c <<< 4 = a + 4 * b + 16 * c := or_shiftLeft c (by omega)
  rw [h2, h4]
  exact or_shiftLeft d (by omega)

/-- For in-range lanes the transaction view packs the bytes that the port packs (R64, R68). -/
theorem packDaily_take_lanes {elem : Lanes} (h : ∀ k < 48, (lane elem k).toNat ≤ 3) :
    Tx.packDaily ((elem.toList.take 48).map fun e => (e.toNat : Int)) = dailyBytes elem :=
  List.map_congr_left fun i hi => by
    have hi12 : i < 12 := by simpa using hi
    have h0 := h (4 * i) (by omega)
    have h1 := h (4 * i + 1) (by omega)
    have h2 := h (4 * i + 2) (by omega)
    have h3 := h (4 * i + 3) (by omega)
    have hslot : ∀ k < 48, Tx.slotAt ((elem.toList.take 48).map fun e => (e.toNat : Int)) k = (lane elem k).toNat :=
      fun k hk => slotAt_take_lanes (le_refl 48) elem hk
    apply BitVec.eq_of_toNat_eq
    rw [packByte_toNat, BitVec.toNat_ofNat, hslot _ (by omega), hslot _ (by omega), hslot _ (by omega),
      hslot _ (by omega), Tx.or_four_slots h0 h1 h2]
    omega

/-- The word of fourteen packed bits is the port's result word (R55, R78). -/
theorem Word.ofNat_packWeek (elem : Lanes) : Word.ofNat (packWeek elem).toNat = weekWord elem :=
  Word.ext_bits (by rw [Word.ofNat_bits, weekWord_bits, BitVec.ofNat_toNat, weeklyWord])

/-- The port extracts the slots that `Tx.ddec` lists, each zero extended (R55, R60). -/
theorem dailySlots_eq_map_fieldAt {elem : Lanes} {opnd : List Byte} (h : ∀ j < 12, opnd[j]? = some (lane elem j)) :
    dailySlots elem =
      ((List.range 48).map fun k => (Tx.fieldAt (opnd.getD (k / 4) 0).toNat (2 * (k % 4)) : Int)).map
        (BitVec.ofInt 8) := by
  rw [dailySlots, List.map_map]
  refine List.map_congr_left fun k hk => ?_
  have hk48 : k < 48 := by simpa using hk
  have hbyte : opnd.getD (k / 4) 0 = lane elem (k / 4) := by
    rw [List.getD_eq_getElem?_getD, h (k / 4) (by omega), Option.getD_some]
  rw [slotByte_field, Function.comp_apply, hbyte, Tx.fieldAt_eq, BitVec.ofInt_natCast]

/-! One lemma per operation. -/

theorem ddecResponse_eq_responseOf {elem : Lanes} {opnd : List Byte}
    (h : ∀ j < min opnd.length 48, opnd[j]? = some (lane elem j)) :
    ddecResponse opnd.length elem = responseOf (Tx.outcome (.ddec opnd)) := by
  by_cases hlen : opnd.length = 12
  · have hslots := dailySlots_eq_map_fieldAt (elem := elem) (opnd := opnd) fun j hj => h j (by omega)
    rw [Tx.outcome, Tx.ddec_of_length hlen, hlen, ddecResponse_ok, hslots]
    rfl
  · rw [Tx.outcome, Tx.ddec_shape hlen, ddecResponse_shape hlen]
    rfl

theorem dencResponse_eq_responseOf {len : Nat} {elem : Lanes} {opnd : List Int} (h : LanesPresent len elem opnd) :
    dencResponse len elem = responseOf (Tx.outcome (.denc opnd)) := by
  rcases encodeCheck_cases 48 len elem with ⟨hlen, -⟩ | ⟨rfl, hr, -⟩ | ⟨rfl, hr, -⟩
  · rw [Tx.outcome, Tx.denc_shape (h.1.trans_ne hlen), dencResponse_shape hlen]
    rfl
  · rw [Tx.outcome, Tx.denc_range h.1 (h.all_inRange_eq_false (le_refl 48) hr), dencResponse_range hr]
    rfl
  · rw [h.eq_take_lanes (le_refl 48) hr, Tx.outcome,
      Tx.denc_of_wellFormed (take_lanes_wellFormed (le_refl 48) hr), packDaily_take_lanes hr, dencResponse_ok hr]
    rfl

theorem wdecResponse_eq_responseOf (word : Word) :
    wdecResponse word = responseOf (Tx.outcome (.wdec word.bits.toNat)) := by
  rw [wdecResponse, ← weeklySlots_bits, weeklySlots_eq_map_fieldAt]
  rfl

theorem wencResponse_eq_responseOf {len : Nat} {elem : Lanes} {opnd : List Int} (h : LanesPresent len elem opnd) :
    wencResponse len elem = responseOf (Tx.outcome (.wenc opnd)) := by
  rcases encodeCheck_cases 7 len elem with ⟨hlen, -⟩ | ⟨rfl, hr, -⟩ | ⟨rfl, hr, -⟩
  · rw [Tx.outcome, Tx.wenc_shape (h.1.trans_ne hlen), wencResponse_shape hlen]
    rfl
  · rw [Tx.outcome, Tx.wenc_range h.1 (h.all_inRange_eq_false (by decide) hr), wencResponse_range hr]
    rfl
  · rw [h.eq_take_lanes (by decide) hr, Tx.outcome, Tx.wenc_of_wellFormed (take_lanes_wellFormed (by decide) hr),
      packWeekly_take_lanes hr, wencResponse_ok hr, ← Word.ofNat_packWeek]
    rfl

/-- The answer at the ports is the outcome of the command the ports stand for, by either reading (R24, R53). -/
theorem answerOf_eq_responseOf {i : Instr} {elem : Lanes} {word : Word} {c : Tx.Command}
    (h : Presents i elem word c) : answerOf elem word i = responseOf (Tx.outcome c) := by
  cases i <;> cases c <;> try exact h.elim
  case ddec.ddec len opnd =>
    obtain ⟨rfl, hbytes⟩ := h
    exact ddecResponse_eq_responseOf hbytes
  case denc.denc len opnd => exact dencResponse_eq_responseOf (presents_denc_iff.1 h)
  case wdec.wdec len n =>
    obtain rfl : n = word.bits.toNat := h
    exact wdecResponse_eq_responseOf word
  case wenc.wenc len opnd => exact wencResponse_eq_responseOf (presents_wenc_iff.1 h)

/-- Settles O17: `exec` gives the command its answer, and that answer is the outcome. -/
theorem portsCarryTheTransactionOutcome : Obligations.PortsCarryTheTransactionOutcome := by
  unfold Obligations.PortsCarryTheTransactionOutcome
  intro i s c h
  rw [exec_eq, answerOf_eq_responseOf h]
  rfl

/-- Settles O16: the lanes as they are, read as unsigned where an element is a slot, are an operand. -/
theorem everyPortCommandHasAnOperand : Obligations.EveryPortCommandHasAnOperand := by
  unfold Obligations.EveryPortCommandHasAnOperand
  intro i elem word
  cases i with
  | ddec len =>
    exact ⟨.ddec ((List.range len).map (lane elem)), by simp,
      fun j hj => by simp [List.getElem?_range (lt_min_iff.1 hj).1]⟩
  | denc len => exact ⟨.denc _, presents_denc_iff.2 (lanesPresent_unsigned len elem)⟩
  | wdec len => exact ⟨.wdec word.bits.toNat, rfl⟩
  | wenc len => exact ⟨.wenc _, presents_wenc_iff.2 (lanesPresent_unsigned len elem)⟩

end Sys2Proof.Machine
end

section
/-! PROOF. The shape of every response, and the inputs it depends on (R23 to R25). -/

namespace Sys2Proof.Machine

open Sys2Proof

/-- What an instruction answers when its checks pass. -/
def successOf (elem : Lanes) (word : Word) : Instr → Response
  | .ddec _ => Response.ofElems (dailySlots elem)
  | .denc _ => Response.ofElems (dailyBytes elem)
  | .wdec _ => Response.ofElems (weeklySlots word.days)
  | .wenc _ => Response.ofWord (weekWord elem)

/-- Every answer is an error or the instruction's success, never a mixture (R102). -/
theorem answerOf_eq_raise_or_successOf (elem : Lanes) (word : Word) (i : Instr) :
    (∃ k, answerOf elem word i = Response.raise k) ∨ answerOf elem word i = successOf elem word i := by
  cases i with
  | ddec len =>
    by_cases hlen : len = 12
    · subst hlen
      exact .inr (ddecResponse_ok elem)
    · exact .inl ⟨_, ddecResponse_shape hlen elem⟩
  | denc len =>
    rcases encodeCheck_cases 48 len elem with ⟨hlen, -⟩ | ⟨rfl, hr, -⟩ | ⟨rfl, hr, -⟩
    · exact .inl ⟨_, dencResponse_shape hlen elem⟩
    · exact .inl ⟨_, dencResponse_range hr⟩
    · exact .inr (dencResponse_ok hr)
  | wdec len => exact .inr rfl
  | wenc len =>
    rcases encodeCheck_cases 7 len elem with ⟨hlen, -⟩ | ⟨rfl, hr, -⟩ | ⟨rfl, hr, -⟩
    · exact .inl ⟨_, wencResponse_shape hlen elem⟩
    · exact .inl ⟨_, wencResponse_range hr⟩
    · exact .inr (wencResponse_ok hr)

theorem raise_status_ne_ok (k : Tx.ErrorKind) : (Response.raise k).status ≠ .ok := by
  cases k <;> exact Status.noConfusion

theorem successOf_status (elem : Lanes) (word : Word) (i : Instr) : (successOf elem word i).status = .ok := by
  cases i <;> rfl

/-- The six bits of `rsp_len` count a result of fewer than 64 elements whole (R23). -/
theorem ofElems_shape {l : List Byte} {n : Nat} (hn : n < 64) (h : l.length = n) :
    (Response.ofElems l).elem.length = (Response.ofElems l).len.toNat
      ∧ (Response.ofElems l).len = BitVec.ofNat 6 n ∧ (Response.ofElems l).word = none := by
  subst h
  exact ⟨(Nat.mod_eq_of_lt hn).symm, rfl, rfl⟩

/-- Settles O14: an error carries nothing, and a success has the length of its operation's result. -/
theorem everyCommandCompletesWithItsShape : Obligations.EveryCommandCompletesWithItsShape := by
  unfold Obligations.EveryCommandCompletesWithItsShape
  intro i s
  refine ⟨answerOf s.cmd.elem s.cmd.word i, exec_eq i s, ?_⟩
  rcases answerOf_eq_raise_or_successOf s.cmd.elem s.cmd.word i with ⟨k, hk⟩ | hok
  · rw [hk]
    exact ⟨fun _ => ⟨rfl, rfl, rfl⟩, fun hst => absurd hst (raise_status_ne_ok k)⟩
  · rw [hok]
    refine ⟨fun hst => absurd (successOf_status _ _ i) hst, fun _ => ?_⟩
    cases i with
    | ddec len => exact ofElems_shape (by decide) (dailySlots_length _)
    | denc len => exact ofElems_shape (by decide) (dailyBytes_length _)
    | wdec len => exact ofElems_shape (by decide) (weeklySlots_length _)
    | wenc len => exact ⟨rfl, rfl, Option.some_ne_none _⟩

/-! The lanes each answer reads: those below the stated length, when the length is the operation's (R25). -/

theorem ddecResponse_congr {len : Nat} {e₁ e₂ : Lanes} (h : ∀ j < min len 48, lane e₁ j = lane e₂ j) :
    ddecResponse len e₁ = ddecResponse len e₂ := by
  by_cases hlen : len = 12
  · subst hlen
    rw [ddecResponse_ok, ddecResponse_ok, dailySlots_congr h]
  · rw [ddecResponse_shape hlen, ddecResponse_shape hlen]

theorem encodeCheck_self_congr {n : Nat} {e₁ e₂ : Lanes} (h : ∀ j < n, lane e₁ j = lane e₂ j) :
    encodeCheck n n e₁ = encodeCheck n n e₂ := by
  rw [encodeCheck, encodeCheck, rangeCheck_congr h]

theorem dencResponse_congr {len : Nat} {e₁ e₂ : Lanes} (h : ∀ j < min len 48, lane e₁ j = lane e₂ j) :
    dencResponse len e₁ = dencResponse len e₂ := by
  by_cases hlen : len = 48
  · subst hlen
    rw [dencResponse, dencResponse, encodeCheck_self_congr (n := 48) h, dailyBytes_congr h]
  · rw [dencResponse_shape hlen, dencResponse_shape hlen]

theorem wencResponse_congr {len : Nat} {e₁ e₂ : Lanes} (h : ∀ j < min len 48, lane e₁ j = lane e₂ j) :
    wencResponse len e₁ = wencResponse len e₂ := by
  by_cases hlen : len = 7
  · subst hlen
    rw [wencResponse, wencResponse, encodeCheck_self_congr (n := 7) h, weekWord_congr h]
  · rw [wencResponse_shape hlen, wencResponse_shape hlen]

/-- Two commands with one answer get it in their two states, whatever else the states hold. -/
theorem exec_common_response {i₁ i₂ : Instr} {s₁ s₂ : State}
    (h : answerOf s₁.cmd.elem s₁.cmd.word i₁ = answerOf s₂.cmd.elem s₂.cmd.word i₂) : ∃ r : Response,
      (∃ t₁, exec i₁ s₁ = .next t₁ ∧ t₁.pending = s₁.pending ++ [
        { instr := i₁, elem := s₁.cmd.elem, word := s₁.cmd.word, rsp := r }])
      ∧ (∃ t₂, exec i₂ s₂ = .next t₂ ∧ t₂.pending = s₂.pending ++ [
        { instr := i₂, elem := s₂.cmd.elem, word := s₂.cmd.word, rsp := r }]) :=
  ⟨_, ⟨_, exec_eq i₁ s₁, rfl⟩, _, exec_eq i₂ s₂, by rw [State.answer_pending, h]⟩

/-- Settles O15: each operation's answer is the same function of the same used inputs. -/
theorem unusedInputsAndHistoryAreIgnored : Obligations.UnusedInputsAndHistoryAreIgnored := by
  unfold Obligations.UnusedInputsAndHistoryAreIgnored
  refine ⟨fun len s₁ s₂ h i hi => exec_common_response ?_, fun len₁ len₂ s₁ s₂ h => exec_common_response ?_⟩
  · simp only [List.mem_cons, List.not_mem_nil, or_false] at hi
    rcases hi with rfl | rfl | rfl
    · exact ddecResponse_congr h
    · exact dencResponse_congr h
    · exact wencResponse_congr h
  · exact congrArg wdecResponse h

end Sys2Proof.Machine
end

section
/-! PROOF. One clock edge: what it does with `rst` at 0, and the invariant that every answer is its own command's
(R22 to R24, R26). -/

namespace Sys2Proof.Machine

open Sys2Proof

namespace State

variable (s : State)

/-- The command on the ports with the answer it gets when it is accepted. -/
def ownAnswer : Transaction where
  instr := s.instr
  elem := s.cmd.elem
  word := s.cmd.word
  rsp := answerOf s.cmd.elem s.cmd.word s.instr

theorem ownAnswer_answered : s.ownAnswer.Answered := fun _ h => answerOf_eq_responseOf h

theorem answerTo_ownAnswer : Safety.AnswerTo s.cmd s.ownAnswer :=
  ⟨s.decode_header, rfl, rfl, s.ownAnswer_answered⟩

/-- The answers an edge adds: one for the command it accepts (R24). -/
def newAnswers : List Transaction :=
  if s.accepts then [s.ownAnswer] else []

theorem eq_ownAnswer_of_mem {s : State} {x : Transaction} (h : x ∈ s.newAnswers) : x = s.ownAnswer := by
  have hx : s.accepts = true ∧ x = s.ownAnswer := by simpa [newAnswers] using h
  exact hx.2

/-- The state after the transfers of an edge without `rst`, before the ports of the next cycle are set. -/
def transfer : State :=
  if s.accepts then s.takeResponse.answer s.instr s.ownAnswer.rsp else s.takeResponse

/-- The state after an edge without `rst`. -/
def edge : State :=
  s.transfer.endEdge s.accepts

@[simp] theorem transfer_received : s.transfer.received = s.takeResponse.received := by
  unfold transfer; split <;> rfl

@[simp] theorem transfer_rsp : s.transfer.rsp = s.takeResponse.rsp := by
  unfold transfer; split <;> rfl

@[simp] theorem transfer_pending : s.transfer.pending = s.pending ++ s.newAnswers := by
  unfold transfer newAnswers
  split <;> simp [ownAnswer]

@[simp] theorem transfer_inFlight : s.transfer.inFlight = s.takeResponse.inFlight ++ s.newAnswers := by
  simp [inFlight]

@[simp] theorem edge_received : s.edge.received = s.takeResponse.received := by simp [edge]

/-- An edge without `rst` loses no response and adds the answer of the command it accepts, in order (R24). -/
theorem edge_record : s.edge.received ++ s.edge.inFlight = s.received ++ s.inFlight ++ s.newAnswers := by
  simp only [edge, endEdge_received, endEdge_inFlight, transfer_received, transfer_inFlight]
  rw [← List.append_assoc, takeResponse_kept]

end State

/-- With `rst` at 0 a step is the edge: `step_cases` without its case for reset. -/
theorem step_eq_edge {s : State} (h : s.rst = false) : step s = .next s.edge := by
  rcases step_cases s with ⟨hr, -⟩ | ⟨-, ha, hs⟩ | ⟨-, ha, hs⟩
  · exact absurd (hr.symm.trans h) Bool.noConfusion
  · simpa [State.edge, State.transfer, State.ownAnswer, ha] using hs
  · simpa [State.edge, State.transfer, ha] using hs

theorem step_eq_reset {s : State} (h : s.rst = true) : step s = .next (s.dropInFlight.endEdge false) := by
  rcases step_cases s with ⟨-, hs⟩ | ⟨hr, -⟩ | ⟨hr, -⟩
  · exact hs
  all_goals exact absurd (h.symm.trans hr) Bool.noConfusion

/-- Settles O22: the header on the ports decodes to one instruction, and `step_cases` says what is run. -/
theorem stepRunsTheCommandOnThePorts : Obligations.StepRunsTheCommandOnThePorts := by
  unfold Obligations.StepRunsTheCommandOnThePorts
  intro s i hr hv hc hdec
  have hi : s.instr = i := by
    rw [← header_eq _ _ s.cmd.op.isLt] at hdec
    exact Except.ok.inj (s.decode_header.symm.trans hdec)
  have ha : s.accepts = true := by simp [State.accepts, hr, hv, hc]
  rw [step_eq_edge hr, exec_eq]
  simp [State.edge, State.transfer, State.ownAnswer, ha, hi]

/-- Settles O25: the response moves from the ports to the host, and the rest of the edge leaves it there. -/
theorem readyHostReceivesTheResponse : Obligations.ReadyHostReceivesTheResponse := by
  unfold Obligations.ReadyHostReceivesTheResponse
  intro s x hr hx hready
  have hd : s.delivers = true := by simp [State.delivers, State.rspValid, hr, hx, hready]
  exact ⟨s.edge, step_eq_edge hr, s.edge_received.trans (s.takeResponse_of_delivers hd hx).1⟩

/-- Settles O28: the new answers of the edge are those of the command it accepts. -/
theorem oneAnswerPerAcceptedCommandInOrder : Obligations.OneAnswerPerAcceptedCommandInOrder := by
  unfold Obligations.OneAnswerPerAcceptedCommandInOrder
  intro s hr
  have ha : s.accepts = true ↔ s.cmdValid = true ∧ s.cmdReady = true := by
    rw [s.accepts_eq hr, Bool.and_eq_true]
  refine ⟨s.edge, s.newAnswers, step_eq_edge hr, s.edge_record, ?_, fun h => ?_, fun h => ?_⟩
  · rw [State.edge_received]
    exact s.takeResponse_received_grows
  · exact ⟨s.ownAnswer, if_pos (ha.2 h), s.answerTo_ownAnswer⟩
  · exact if_neg fun hacc => h (ha.1 hacc)

/-- Settles O29: a reset edge keeps only what the host has received, and any other edge adds at most the command's
own answer. -/
theorem stepsKeepEveryAnswerItsOwn : Obligations.StepsKeepEveryAnswerItsOwn := by
  unfold Obligations.StepsKeepEveryAnswerItsOwn
  intro s t hs hstep x hx
  cases hr : s.rst
  case false =>
    obtain rfl : s.edge = t := Host.Outcome.next.inj ((step_eq_edge hr).symm.trans hstep)
    rw [State.edge_record] at hx
    rcases List.mem_append.1 hx with hold | hnew
    · exact hs x hold
    · exact State.eq_ownAnswer_of_mem hnew ▸ s.ownAnswer_answered
  case true =>
    obtain rfl : s.dropInFlight.endEdge false = t :=
      Host.Outcome.next.inj ((step_eq_reset hr).symm.trans hstep)
    have hreceived : x ∈ s.received := by simpa using hx
    exact hs x (List.mem_append_left _ hreceived)

/-- Settles O30: at reset nothing has been received and nothing is in flight (R27). -/
theorem resetHasEveryAnswerItsOwn : Obligations.ResetHasEveryAnswerItsOwn := by
  unfold Obligations.ResetHasEveryAnswerItsOwn
  intro x hx
  exact absurd hx List.not_mem_nil

/-- Settles O31: both are fields of the reset state (R27). -/
theorem resetHasNothingInFlight : Obligations.ResetHasNothingInFlight := by
  unfold Obligations.ResetHasNothingInFlight
  exact ⟨rfl, rfl⟩

end Sys2Proof.Machine
end

section
/-! PROOF. Every command is answered in the end (R24, R123; log entries 4 and 6): each edge without `rst` that
does not find everything done shortens what is still to wait for or what is still to do. -/

namespace Sys2Proof.Machine

open Sys2Proof

namespace State

variable (b : Bool) (s : State)

@[simp] theorem transfer_cmdValid : s.transfer.cmdValid = s.cmdValid := by
  unfold transfer; split <;> simp

@[simp] theorem transfer_cmd : s.transfer.cmd = s.cmd := by
  unfold transfer; split <;> simp

@[simp] theorem transfer_hostCmds : s.transfer.hostCmds = s.hostCmds := by
  unfold transfer; split <;> simp

@[simp] theorem transfer_hostCycles : s.transfer.hostCycles = s.hostCycles := by
  unfold transfer; split <;> simp

@[simp] theorem transfer_holds : s.transfer.holds = s.holds := by
  unfold transfer; split <;> simp

theorem transfer_hold : s.transfer.hold = s.hold := by simp [hold]

@[simp] theorem driveCycle_hostCycles : s.driveCycle.hostCycles = s.hostCycles.tail := by
  unfold driveCycle; split <;> simp [*]

/-- The host's `rst` and `rsp_ready` in the next cycle are the next of its plan, and after its end it takes every
response (log entry 6). -/
theorem driveCycle_inputs :
    (s.hostCycles = [] ∧ s.driveCycle.rst = false ∧ s.driveCycle.rspReady = true) ∨
    ∃ c ∈ s.hostCycles, s.driveCycle.rst = c.rst ∧ s.driveCycle.rspReady = c.rspReady := by
  unfold driveCycle
  split
  next h => exact .inl ⟨h, rfl, rfl⟩
  next c rest h => exact .inr ⟨c, by simp [h], rfl, rfl⟩

/-! The host's plan without `rst`. -/

@[simp] theorem edge_holds : s.edge.holds = s.holds.tail := by simp [edge]

@[simp] theorem edge_hostCycles : s.edge.hostCycles = s.hostCycles.tail := by simp [edge, endEdge]

theorem edge_noReset (h : Safety.NoReset s) : Safety.NoReset s.edge := by
  obtain ⟨-, hplan⟩ := h
  refine ⟨?_, fun c hc => hplan c (List.mem_of_mem_tail (by simpa using hc))⟩
  rcases driveCycle_inputs (s.transfer.present.driveCommand s.accepts) with ⟨-, hrst, -⟩ | ⟨c, hc, hrst, -⟩
  · exact hrst
  · exact hrst.trans (hplan c (by simpa using hc))

/-! The commands still to be accepted. -/

/-- What the host has still to put through the command channel. -/
def planLeft : Nat :=
  4 * s.hostCmds.length + 3 * s.cmdValid.toNat

/-- A free command channel takes the next item of the plan. -/
theorem driveCommand_free (h : s.cmdValid = false ∨ b = true) :
    Safety.unaccepted (s.driveCommand b) = s.hostCmds.filterMap id
      ∧ (s.driveCommand b).planLeft ≤ 4 * s.hostCmds.length - 1 := by
  have hfree : (s.cmdValid && !b) = false := by rcases h with h | h <;> simp [h]
  simp only [driveCommand, hfree, Bool.false_eq_true, if_false]
  rcases hp : s.hostCmds with _ | ⟨_ | c, rest⟩
  · simp [Safety.unaccepted, planLeft]
  · exact ⟨rfl, by simp only [planLeft, List.length_cons, Bool.toNat_false]; omega⟩
  · exact ⟨rfl, by simp only [planLeft, List.length_cons, Bool.toNat_true]; omega⟩

theorem edge_unaccepted :
    Safety.unaccepted s = (if s.accepts then [s.cmd] else []) ++ Safety.unaccepted s.edge := by
  have hedge : Safety.unaccepted s.edge = Safety.unaccepted (s.transfer.present.driveCommand s.accepts) := by
    simp [edge, endEdge, Safety.unaccepted]
  cases ha : s.accepts <;> cases hv : s.cmdValid
  · rw [hedge, (driveCommand_free _ _ (by simp [hv])).1]
    simp [Safety.unaccepted, hv]
  · rw [hedge, ha, driveCommand_held _ (by simp [hv])]
    simp [Safety.unaccepted]
  · simp [accepts, hv] at ha
  · rw [hedge, (driveCommand_free _ _ (by simp [ha])).1]
    simp [Safety.unaccepted, hv]

/-- An accepted command leaves the channel, and without one the plan moves on. -/
theorem edge_planLeft :
    s.edge.planLeft + 3 * s.accepts.toNat ≤ s.planLeft
      ∧ (s.cmdValid = false → s.edge.planLeft ≤ s.planLeft - 1) := by
  have hedge : s.edge.planLeft = (s.transfer.present.driveCommand s.accepts).planLeft := by
    simp [edge, endEdge, planLeft]
  rw [hedge]
  cases ha : s.accepts <;> cases hv : s.cmdValid
  · have hfree := (driveCommand_free false s.transfer.present (by simp [hv])).2
    have hplan : s.planLeft = 4 * s.hostCmds.length := by simp [planLeft, hv]
    simp only [present_hostCmds, transfer_hostCmds] at hfree
    simp only [Bool.toNat_false]
    omega
  · rw [driveCommand_held _ (by simp [hv])]
    simp [planLeft]
  · simp [accepts, hv] at ha
  · have hfree := (driveCommand_free true s.transfer.present (.inr rfl)).2
    have hplan : s.planLeft = 4 * s.hostCmds.length + 3 := by simp [planLeft, hv]
    simp only [present_hostCmds, transfer_hostCmds] at hfree
    simp only [Bool.toNat_true, Bool.true_eq_false, false_implies, and_true]
    omega

/-! The commands in flight. -/

/-- What the responses in flight have still to go through. -/
def load : Nat :=
  2 * s.pending.length + s.rsp.toList.length

theorem takeResponse_load : s.takeResponse.load + s.delivers.toNat = s.load := by
  unfold takeResponse
  split
  next h =>
    have hvalid : (s.rst = false ∧ s.rsp.isSome = true) ∧ s.rspReady = true := by
      simpa [delivers, rspValid] using h
    obtain ⟨x, hx⟩ := Option.isSome_iff_exists.1 hvalid.1.2
    simp [load, h, hx]
  next h => simp [h]

theorem transfer_load : s.transfer.load + s.delivers.toNat = s.load + 2 * s.accepts.toNat := by
  have htake := s.takeResponse_load
  have hnew : s.newAnswers.length = s.accepts.toNat := by
    unfold newAnswers
    split <;> simp [*]
  simp only [load, transfer_pending, transfer_rsp, takeResponse_pending, List.length_append, hnew] at htake ⊢
  omega

theorem present_load_le : s.present.load ≤ s.load := by
  unfold present load
  split
  next x xs hr hp => split <;> simp [hr, hp]
  next => rfl

theorem present_load_lt (hh : s.hold.rsp = false) (hr : s.rsp = none) (hp : s.pending ≠ []) :
    s.present.load < s.load := by
  obtain ⟨x, xs, hx⟩ := List.exists_cons_of_ne_nil hp
  have hpresent : s.present.load = 2 * xs.length + 1 := by simp [present, load, hh, hr, hx]
  have hload : s.load = 2 * (xs.length + 1) := by simp [load, hr, hx]
  omega

theorem edge_load_le : s.edge.load ≤ s.transfer.load := by
  simpa [edge, load] using s.transfer.present_load_le

/-- With nothing presented and nothing held back, the oldest command in flight presents its response. -/
theorem edge_load_lt (hh : s.hold.rsp = false) (hr : s.rsp = none) (hp : s.pending ≠ []) :
    s.edge.load < s.transfer.load := by
  have hd : s.delivers = false := by simp [delivers, rspValid, hr]
  have hlt := s.transfer.present_load_lt (by rw [transfer_hold, hh])
    (by rw [transfer_rsp, takeResponse_of_not_delivers _ hd, hr]) (by simp [hp])
  simpa [edge, load] using hlt

/-! What is still to do, and what is still to wait for. -/

/-- The moves that the planned commands and their responses have still to make, up to a constant factor: from the
plan to the ports, into flight, to the response ports, to the host. Each move lowers it. -/
def work : Nat :=
  s.planLeft + s.load

/-- The cycles in which the implementation or the host may still hold something back (log entries 4 and 6). -/
def delay : Nat :=
  2 * s.holds.length + 2 * s.hostCycles.length + (!s.cmdReady).toNat + (!s.rspReady).toNat

theorem work_eq_zero (h : s.work = 0) : s.cmdValid = false ∧ s.hostCmds = [] ∧ s.inFlight = [] := by
  simp only [work, planLeft, load] at h
  refine ⟨?_, List.eq_nil_of_length_eq_zero (by omega), ?_⟩
  · cases hv : s.cmdValid
    · rfl
    · simp [hv] at h
  · rw [inFlight, List.eq_nil_of_length_eq_zero (by omega : s.rsp.toList.length = 0),
      List.eq_nil_of_length_eq_zero (by omega : s.pending.length = 0)]
    rfl

theorem edge_work_le : s.edge.work ≤ s.work := by
  have hplan := s.edge_planLeft.1
  have hload := s.transfer_load
  have hpresent := s.edge_load_le
  rw [work, work]
  omega

theorem delay_eq_zero (h : s.delay = 0) :
    s.cmdReady = true ∧ s.rspReady = true ∧ s.hold.rsp = false := by
  have hholds : s.holds = [] := List.eq_nil_of_length_eq_zero (by rw [delay] at h; omega)
  have hready : (!s.cmdReady).toNat = 0 ∧ (!s.rspReady).toNat = 0 := by rw [delay] at h; omega
  simpa [hold, hholds] using hready

/-- With nothing held back any more, an edge makes at least one of the moves still to make. -/
theorem edge_work_lt (hr : s.rst = false) (hd : s.delay = 0) (hw : s.work ≠ 0) : s.edge.work < s.work := by
  obtain ⟨hcmdReady, hrspReady, hhold⟩ := s.delay_eq_zero hd
  obtain ⟨hplan, hfree⟩ := s.edge_planLeft
  have hload := s.transfer_load
  have hpresent := s.edge_load_le
  have ha : s.accepts = s.cmdValid := by simp [accepts, hr, hcmdReady]
  rw [work] at hw
  rw [work, work]
  cases hv : s.cmdValid <;> rw [ha, hv] at hplan hload
  case true =>
    simp only [Bool.toNat_true] at hplan hload
    omega
  case false =>
    have hfree := hfree hv
    simp only [Bool.toNat_false] at hplan hload
    by_cases hp : s.planLeft = 0
    · have hl : s.load ≠ 0 := by omega
      cases hrsp : s.rsp with
      | some x =>
        have hdel : s.delivers = true := by simp [delivers, rspValid, hr, hrspReady, hrsp]
        rw [hdel, Bool.toNat_true] at hload
        omega
      | none =>
        have hpend : s.pending ≠ [] := fun h => hl (by simp [load, hrsp, h])
        have hlt := s.edge_load_lt hhold hrsp hpend
        omega
    · omega

/-! A coming hold, or a planned cycle of the host, is used up at an edge and delays the next one at most. -/

theorem edge_cmdDelay_le :
    2 * s.edge.holds.length + (!s.edge.cmdReady).toNat ≤ 2 * s.holds.length - 1 := by
  cases h : s.holds with
  | nil => simp [edge, endEdge, hold, h]
  | cons c rest =>
    have hbit := Bool.toNat_le (!s.edge.cmdReady)
    rw [edge_holds, h, List.tail_cons, List.length_cons]
    omega

theorem edge_hostDelay_le :
    2 * s.edge.hostCycles.length + (!s.edge.rspReady).toNat ≤ 2 * s.hostCycles.length - 1 := by
  cases h : s.hostCycles with
  | nil => simp [edge, endEdge, driveCycle, h]
  | cons c rest =>
    have hbit := Bool.toNat_le (!s.edge.rspReady)
    rw [edge_hostCycles, h, List.tail_cons, List.length_cons]
    omega

theorem edge_delay_le : s.edge.delay ≤ s.delay - 1 := by
  have hcmd := s.edge_cmdDelay_le
  have hhost := s.edge_hostDelay_le
  rw [delay, delay]
  omega

/-- Every edge with something left to do brings the end nearer. -/
theorem edge_progress (hr : s.rst = false) (hw : s.work ≠ 0) : s.edge.delay + s.edge.work < s.delay + s.work := by
  have hdelay := s.edge_delay_le
  by_cases hd : s.delay = 0
  · have hlt := s.edge_work_lt hr hd hw
    omega
  · have hle := s.edge_work_le
    omega

end State

/-- The accepted command, if any, and the new answers of an edge match one by one (R24). -/
theorem State.newAnswers_answer (s : State) :
    List.Forall₂ Safety.AnswerTo (if s.accepts then [s.cmd] else []) s.newAnswers := by
  unfold State.newAnswers
  split
  · exact .cons s.answerTo_ownAnswer .nil
  · exact .nil

/-- Settles O32, by induction on what is still to wait for and to do. -/
theorem everyCommandIsAnsweredInOrder : Obligations.EveryCommandIsAnsweredInOrder := by
  unfold Obligations.EveryCommandIsAnsweredInOrder
  intro s hs
  induction hm : s.delay + s.work using Nat.strong_induction_on generalizing s with
  | _ m ih =>
    by_cases hw : s.work = 0
    · obtain ⟨hv, hcmds, hfl⟩ := s.work_eq_zero hw
      exact ⟨0, s, [], rfl, hv, hcmds, hfl, by simp [hfl], by simp [Safety.unaccepted, hv, hcmds]⟩
    · obtain ⟨n, t, answers, hrun, hv, hcmds, hfl, hrec, hans⟩ :=
        ih _ (hm ▸ s.edge_progress hs.1 hw) s.edge (s.edge_noReset hs) rfl
      refine ⟨n + 1, t, s.newAnswers ++ answers, ?_, hv, hcmds, hfl, ?_, ?_⟩
      · rw [run_of_step n (step_eq_edge hs.1), hrun]
      · rw [hrec, State.edge_record, List.append_assoc _ s.newAnswers]
      · rw [s.edge_unaccepted]
        exact List.rel_append s.newAnswers_answer hans

end Sys2Proof.Machine
end

section
/-! PROOF. The derived one-number view of the twelve bytes (R31, decision D13). -/

namespace Sys2Proof.Machine.Tx

open Sys2Proof

theorem joined_cons (x : Byte) (b : List Byte) : joined (x :: b) = x.toNat + 2 ^ 8 * joined b := rfl

theorem joined_cons_shiftRight (x : Byte) (b : List Byte) (n : Nat) :
    joined (x :: b) >>> (8 + n) = joined b >>> n := by
  have hbyte : joined (x :: b) >>> 8 = joined b := by
    rw [joined_cons, Nat.shiftRight_eq_div_pow]
    omega
  rw [Nat.shiftRight_add, hbyte]

/-- A field inside one byte does not see the bytes joined above it (R32). -/
theorem fieldAt_add_byte_mul {off : Nat} (hoff : off ≤ 6) (x v : Nat) :
    fieldAt (x + 2 ^ 8 * v) off = fieldAt x off := by
  rw [fieldAt_eq, fieldAt_eq, Nat.shiftRight_eq_div_pow, Nat.shiftRight_eq_div_pow]
  interval_cases off <;> omega

/-- Byte `i` of the joined number starts at bit `8i`, so its fields are those of byte `i` alone (R31, R45). -/
theorem fieldAt_joined {off : Nat} (hoff : off ≤ 6) (b : List Byte) (i : Nat) :
    fieldAt (joined b) (8 * i + off) = fieldAt (b.getD i 0).toNat off := by
  induction b generalizing i with
  | nil => simp [joined, fieldAt]
  | cons x b ih =>
    cases i with
    | zero => rw [Nat.mul_zero, Nat.zero_add, joined_cons, fieldAt_add_byte_mul hoff, List.getD_cons_zero]
    | succ i =>
      have hoffset : 8 * (i + 1) + off = 8 + (8 * i + off) := by omega
      rw [hoffset, fieldAt, joined_cons_shiftRight, ← fieldAt, ih, List.getD_cons_succ]

/-- Settles O50: bit `2k` of the joined number is bit `2(k mod 4)` of byte `k/4`. -/
theorem joinedBytesHoldSlotsInOrder : Obligations.JoinedBytesHoldSlotsInOrder := by
  unfold Obligations.JoinedBytesHoldSlotsInOrder
  intro b hb
  refine ⟨_, ddec_of_length hb, fun k hk => ?_⟩
  have hfield := fieldAt_joined (off := 2 * (k % 4)) (by omega) b (k / 4)
  have hoffset : 8 * (k / 4) + 2 * (k % 4) = 2 * k := by omega
  rw [hoffset] at hfield
  rw [List.getElem?_map, List.getElem?_range hk, Option.map_some, ← hfield, fieldAt]

end Sys2Proof.Machine.Tx
end

section
/-! PROOF. The command header (R51, R52): its two fields do not overlap, so reading and writing it undo each
other. -/

namespace Sys2Proof

theorem encode_eq (i : Instr) : encode i = i.len * 4 + i.opcode := header_eq _ _ (opcode_lt i)

theorem encode_lt {i : Instr} (h : i.WellFormed) : encode i < 512 := by
  cases i with
  | ddec n => exact Laws.HeaderFits.ddec n h
  | denc n => exact Laws.HeaderFits.denc n h
  | wdec n => exact Laws.HeaderFits.wdec n h
  | wenc n => exact Laws.HeaderFits.wenc n h

theorem headerOp_encode (i : Instr) : headerOp (encode i) = BitVec.ofNat 2 i.opcode := by
  apply BitVec.eq_of_toNat_eq
  rw [headerOp_toNat, encode_eq, BitVec.toNat_ofNat]
  omega

theorem headerLen_encode {i : Instr} (h : i.WellFormed) : (headerLen (encode i)).toNat = i.len := by
  have hlen : i.len < 128 := h
  have hop := opcode_lt i
  rw [headerLen_toNat, encode_eq]
  omega

/-- Settles O2: the header of an instruction holds its operation code and its length, which together select it. -/
theorem decodeOfEncodeIsTheInstruction : Obligations.DecodeOfEncodeIsTheInstruction := by
  unfold Obligations.DecodeOfEncodeIsTheInstruction
  intro i h
  rw [decode_of_lt (encode_lt h), headerOp_encode, headerLen_encode h, decodeOp_headerOp_opcode]

/-- Settles O3: a header below 512 has no bits beside its two fields, and encoding puts both back in place. -/
theorem everyNineBitNumberIsAHeader : Obligations.EveryNineBitNumberIsAHeader := by
  unfold Obligations.EveryNineBitNumberIsAHeader
  intro w hw
  have hop : (decodeOp (headerOp w) (headerLen w).toNat).opcode = w % 4 := by
    rw [decodeOp_opcode, headerOp_toNat]
  have hlen : (decodeOp (headerOp w) (headerLen w).toNat).len = w / 4 := by
    rw [decodeOp_len, headerLen_toNat]
    omega
  refine ⟨_, decode_of_lt hw, ?_, hop, hlen, ?_⟩
  · have hfits : w / 4 < 128 := by omega
    exact hlen.trans_lt hfits
  · rw [encode_eq, hop, hlen]
    omega

/-- Settles O1: six fixed headers, each evaluated. -/
theorem listedHeadersDecode : Obligations.ListedHeadersDecode := by
  unfold Obligations.ListedHeadersDecode
  decide

/-- Settles O4: the width test is the decoder's first. -/
theorem widerNumbersAreNoHeader : Obligations.WiderNumbersAreNoHeader := by
  unfold Obligations.WiderNumbersAreNoHeader
  intro w hw
  exact if_neg (Nat.not_lt.2 hw)

end Sys2Proof
end

section
/-! PROOF. The elements and the response header at the ports (R53, R54). -/

namespace Sys2Proof.Machine

open Sys2Proof

/-- Settles O18: by either reading the range test asks for an unsigned value of at most 3, which is bits 7..2
at zero, and such a value is its own bits 1..0. -/
theorem eitherReadingGivesOneVerdict : Obligations.EitherReadingGivesOneVerdict := by
  unfold Obligations.EitherReadingGivesOneVerdict
  intro e v h
  have hhigh : e.toNat ≤ 3 ↔ e.toNat / 4 = 0 := by omega
  refine ⟨(elemInRange_iff e).trans hhigh, h.inRange_iff.trans hhigh, fun hin => ?_⟩
  have he : e.toNat ≤ 3 := h.inRange_iff.1 hin
  have hv : v = (e.toNat : Int) := h.eq_toNat he
  rw [elemSlot_toNat]
  omega

/-- The host reads every code the block drives back as its status (R54). -/
theorem Status.ofCode_code (st : Status) : Status.ofCode st.code = some st := by
  cases st <;> rfl

/-- The code that stands for no status is the code of none (R54, U11). -/
theorem Status.code_ne_of_ofCode_eq_none {c : BitVec 2} (h : Status.ofCode c = none) (st : Status) : st.code ≠ c := by
  rintro rfl
  rw [ofCode_code] at h
  cases h

theorem header_ofElems (l : List Byte) : (Response.ofElems l).header = BitVec.ofNat 6 l.length ++ 0b00#2 := rfl

theorem header_ofWord (w : Word) : (Response.ofWord w).header = 0#6 ++ 0b00#2 := rfl

theorem header_raise (k : Tx.ErrorKind) : (Response.raise k).header = 0#6 ++ k.status.code := rfl

/-- Settles O34: the codes by the round trip through the host's reading, the headers by their two fields. -/
theorem responseHeaderCodes : Obligations.ResponseHeaderCodes := by
  unfold Obligations.ResponseHeaderCodes
  have hnone : Status.ofCode 0b11 = none := by decide
  refine ⟨fun st => ⟨Status.code_ne_of_ofCode_eq_none hnone st, st.ofCode_code⟩, hnone, ?_, ?_, ?_, fun w => ?_, ?_, ?_⟩
  · rw [header_ofElems, List.length_replicate]; rfl
  · rw [header_ofElems, List.length_replicate]; rfl
  · rw [header_ofElems, List.length_replicate]; rfl
  · rw [header_ofWord]; rfl
  · rw [header_raise]; rfl
  · rw [header_raise]; rfl

end Sys2Proof.Machine
end

section
/-! PROOF. The daily operations: what they answer in the transaction view and at the ports (40_daily.md). -/

namespace Sys2Proof

/-- A length below 128 above an operation code is the header of that operation (R51, R52). -/
theorem decode_of_fields {i : Instr} (h : i.WellFormed) : decode (4 * i.len + i.opcode) = .ok i := by
  rw [Nat.mul_comm, ← encode_eq]
  exact decodeOfEncodeIsTheInstruction i h

end Sys2Proof

namespace Sys2Proof.Machine

open Sys2Proof

/-- Slot `4i+j` is field `j` of byte `i` (R45). -/
theorem slotIndex_div_mod {i j : Nat} (hj : j < 4) : (4 * i + j) / 4 = i ∧ (4 * i + j) % 4 = j := by
  omega

namespace Tx

theorem fieldAt_le (v off : Nat) : fieldAt v off ≤ 3 := by
  rw [fieldAt_eq]
  omega

/-- Every result of `DDEC` is a well-formed daily schedule (R60, R87). -/
theorem ddec_wellFormed {b : List Byte} {s : List Int} (h : ddec b = .ok s) : WellFormedSlots 48 s := by
  by_cases hb : b.length = 12
  · obtain rfl := Result.ok.inj ((ddec_of_length hb).symm.trans h)
    refine ⟨by simp, fun v hv => ?_⟩
    obtain ⟨k, -, rfl⟩ := List.mem_map.1 hv
    exact ⟨Int.natCast_nonneg _, Int.ofNat_le.2 (fieldAt_le _ _)⟩
  · rw [ddec_shape hb] at h
    cases h

/-- Slot `4i+j` of a `DDEC` result is the field of byte `i` at offset `2j` (R60). -/
theorem ddec_getElem? {b : List Byte} {s : List Int} (h : ddec b = .ok s) (hb : b.length = 12) {i j : Nat}
    (hi : i < 12) (hj : j < 4) : ∃ x, b[i]? = some x ∧ s[4 * i + j]? = some (fieldAt x.toNat (2 * j) : Int) := by
  obtain rfl := Result.ok.inj ((ddec_of_length hb).symm.trans h)
  obtain ⟨hdiv, hmod⟩ := slotIndex_div_mod (i := i) hj
  have hget : b[i]? = some b[i] := List.getElem?_eq_getElem (by omega)
  refine ⟨b[i], hget, ?_⟩
  rw [List.getElem?_map, List.getElem?_range (by omega), Option.map_some, hdiv, hmod,
    List.getD_eq_getElem?_getD, hget, Option.getD_some]

/-- `DDEC` examines no element's value, so it has no range error (R62). -/
theorem ddec_ne_rangeError (b : List Byte) : ddec b ≠ .error .rangeError := by
  intro h
  by_cases hb : b.length = 12
  · rw [ddec_of_length hb] at h
    cases h
  · rw [ddec_shape hb] at h
    cases h

theorem all_inRange_eq_false {s : List Int} (h : ∃ v ∈ s, v < 0 ∨ v > 3) : s.all inRange = false := by
  obtain ⟨v, hv, hout⟩ := h
  refine List.all_eq_false.2 ⟨v, hv, fun hin => ?_⟩
  have hbounds := (inRange_iff v).1 hin
  omega

/-- Byte `i` of a packed schedule is the OR of its four shifted slots, which is their weighted sum and so fits
in eight bits (R64, R86). -/
theorem packDaily_getElem? {s : List Int} (h : WellFormedSlots 48 s) {i : Nat} (hi : i < 12) :
    ∃ b, (packDaily s)[i]? = some b
      ∧ b.toNat = (slotAt s (4 * i) ||| slotAt s (4 * i + 1) <<< 2 ||| slotAt s (4 * i + 2) <<< 4
          ||| slotAt s (4 * i + 3) <<< 6)
      ∧ b.toNat = slotAt s (4 * i) + 4 * slotAt s (4 * i + 1) + 16 * slotAt s (4 * i + 2)
          + 64 * slotAt s (4 * i + 3) := by
  have h0 := slotAt_le h (4 * i)
  have h1 := slotAt_le h (4 * i + 1)
  have h2 := slotAt_le h (4 * i + 2)
  have h3 := slotAt_le h (4 * i + 3)
  refine ⟨_, by rw [packDaily, List.getElem?_map, List.getElem?_range hi, Option.map_some], ?_⟩
  rw [BitVec.toNat_ofNat, or_four_slots h0 h1 h2]
  omega

/-- Settles O35: the length decides between the error and the 48 fields, each of which is a slot. -/
theorem ddecExtractsEveryField : Obligations.DdecExtractsEveryField := by
  unfold Obligations.DdecExtractsEveryField
  refine ⟨fun len h => decode_of_fields (i := .ddec len) h,
    fun opnd => ⟨ddec_shape, fun hlen => ?_, ddec_ne_rangeError opnd⟩⟩
  have hok := ddec_of_length hlen
  obtain ⟨hcount, hrange⟩ := ddec_wellFormed hok
  exact ⟨_, hok, hcount, fun i hi j hj => ddec_getElem? hok hlen hi hj, hrange⟩

/-- Settles O36: the length check comes before the range check, and an operand that passes both is packed four
slots to a byte. -/
theorem dencPacksFourSlotsAByte : Obligations.DencPacksFourSlotsAByte := by
  unfold Obligations.DencPacksFourSlotsAByte
  refine ⟨fun len h => decode_of_fields (i := .denc len) h, fun opnd =>
    ⟨denc_shape, fun hlen hout => denc_range hlen (all_inRange_eq_false hout), fun hlen hin => ?_⟩⟩
  have hwf : WellFormedSlots 48 opnd := ⟨hlen, hin⟩
  refine ⟨_, denc_of_wellFormed hwf, packDaily_length opnd, fun i hi => ?_⟩
  obtain ⟨b, hb, hor, hsum⟩ := packDaily_getElem? hwf hi
  exact ⟨b, _, _, _, _, hb, getElem?_eq_slotAt hwf (by omega), getElem?_eq_slotAt hwf (by omega),
    getElem?_eq_slotAt hwf (by omega), getElem?_eq_slotAt hwf (by omega), hor, hsum⟩

end Tx

/-- An instruction whose answer is `r` adds one transaction in flight with that response, and changes nothing
else (R13, R103). -/
theorem exec_of_answerOf {i : Instr} {s : State} {r : Response} (h : answerOf s.cmd.elem s.cmd.word i = r) :
    exec i s = .next { s with pending := s.pending ++ [
      { instr := i, elem := s.cmd.elem, word := s.cmd.word, rsp := r }] } := by
  rw [exec_eq, h]
  rfl

/-- The byte of four in-range slots is their weighted sum (R64, R68). -/
theorem packByte_toNat_of_inRange {elem : Lanes} (h : ∀ k < 48, (lane elem k).toNat ≤ 3) {i : Nat} (hi : i < 12) :
    (packByte elem i).toNat =
      (lane elem (4 * i)).toNat + 4 * (lane elem (4 * i + 1)).toNat + 16 * (lane elem (4 * i + 2)).toNat
        + 64 * (lane elem (4 * i + 3)).toNat := by
  have hmod : ∀ k < 48, (lane elem k).toNat % 4 = (lane elem k).toNat :=
    fun k hk => Nat.mod_eq_of_lt (Nat.lt_succ_of_le (h k hk))
  rw [packByte_toNat, hmod _ (by omega), hmod _ (by omega), hmod _ (by omega), hmod _ (by omega)]

/-- Settles O5: the answer at length 12 is the list of the 48 slots. -/
theorem ddecAnswersTheSlots : Obligations.DdecAnswersTheSlots := by
  unfold Obligations.DdecAnswersTheSlots
  intro s
  refine ⟨_, exec_of_answerOf (ddecResponse_ok s.cmd.elem), dailySlots_length _, fun i hi j hj => ?_⟩
  obtain ⟨hdiv, hmod⟩ := slotIndex_div_mod (i := i) hj
  rw [dailySlots_getElem? _ (by omega), hdiv, hmod]

/-- Settles O7: in-range lanes pass both checks, and the answer is the list of the 12 packed bytes. -/
theorem dencAnswersTheBytes : Obligations.DencAnswersTheBytes := by
  unfold Obligations.DencAnswersTheBytes
  intro s h
  exact ⟨_, exec_of_answerOf (dencResponse_ok h), dailyBytes_length _,
    fun i hi => ⟨_, dailyBytes_getElem? _ hi, packByte_toNat_of_inRange h hi⟩⟩

/-- Settles O9: one lane out of range fails the range check of the whole operand. -/
theorem dencAnswersRangeError : Obligations.DencAnswersRangeError := by
  unfold Obligations.DencAnswersRangeError
  intro s h
  exact exec_of_answerOf (dencResponse_range h)

/-- Settles O6: the length check fails. -/
theorem ddecAnswersShapeError : Obligations.DdecAnswersShapeError := by
  unfold Obligations.DdecAnswersShapeError
  intro len s h
  exact exec_of_answerOf (ddecResponse_shape h s.cmd.elem)

/-- Settles O8: the length check fails before any element is examined (R100). -/
theorem dencAnswersShapeError : Obligations.DencAnswersShapeError := by
  unfold Obligations.DencAnswersShapeError
  intro len s h
  exact exec_of_answerOf (dencResponse_shape h s.cmd.elem)

end Sys2Proof.Machine
end

section
/-! PROOF. The weekly operations: what they answer in the transaction view and at the ports (41_weekly.md). -/

namespace Sys2Proof.Machine

open Sys2Proof

namespace Tx

/-- A field of a masked integer is the field masked with the field of the mask. -/
theorem fieldAt_and (v m off : Nat) : fieldAt (v &&& m) off = v >>> off &&& fieldAt m off := by
  rw [fieldAt, fieldAt, Nat.shiftRight_and_distrib, Nat.and_assoc]

/-- The mask of the fourteen significant bits covers every weekly field, so the bits above them are ignored (R71). -/
theorem fieldAt_and_weeklyMask (v : Nat) {d : Nat} (hd : d < 7) :
    fieldAt (v &&& 0x3FFF) (2 * d) = fieldAt v (2 * d) := by
  have hmask : ∀ d < 7, fieldAt 0x3FFF (2 * d) = 0b11 := by decide
  rw [fieldAt_and, hmask d hd, fieldAt]

theorem wdec_and_weeklyMask (P : Nat) : wdec (P &&& 0x3FFF) = wdec P :=
  congrArg Result.ok (List.map_congr_left fun d hd => by rw [fieldAt_and_weeklyMask P (List.mem_range.1 hd)])

/-- Every result of `WDEC` is a well-formed weekly schedule (R70, R87). -/
theorem wdec_wellFormed {P : Nat} {s : List Int} (h : wdec P = .ok s) : WellFormedSlots 7 s := by
  obtain rfl := Result.ok.inj h
  refine ⟨by simp, fun v hv => ?_⟩
  obtain ⟨d, -, rfl⟩ := List.mem_map.1 hv
  exact ⟨Int.natCast_nonneg _, Int.ofNat_le.2 (fieldAt_le _ _)⟩

/-- Slot `d` of a `WDEC` result is the field at offset `2d` (R70). -/
theorem wdec_getElem? {P : Nat} {s : List Int} (h : wdec P = .ok s) {d : Nat} (hd : d < 7) :
    s[d]? = some (fieldAt P (2 * d) : Int) := by
  obtain rfl := Result.ok.inj h
  rw [List.getElem?_map, List.getElem?_range hd, Option.map_some]

/-- The packed weekly integer is the OR of the seven shifted slots (R74). -/
theorem packWeekly_eq_or (s : List Int) :
    packWeekly s = (slotAt s 0 ||| slotAt s 1 <<< 2 ||| slotAt s 2 <<< 4 ||| slotAt s 3 <<< 6 ||| slotAt s 4 <<< 8
      ||| slotAt s 5 <<< 10 ||| slotAt s 6 <<< 12) := by
  simp [packWeekly, List.range_succ]

/-- Seven slots fit in fourteen bits (R77). -/
theorem packWeekly_lt {s : List Int} (h : ∀ d < 7, slotAt s d ≤ 3) : packWeekly s < 2 ^ 14 :=
  (packWeekly_eq_sum h).trans_lt (foldl_or_slots h).2

/-- Settles O37: the result lists the seven fields, each a slot, and no field reaches bit 14. -/
theorem wdecExtractsEveryDay : Obligations.WdecExtractsEveryDay := by
  unfold Obligations.WdecExtractsEveryDay
  refine ⟨fun len h => decode_of_fields (i := .wdec len) h, fun P => ?_⟩
  have hok : wdec P = .ok _ := rfl
  obtain ⟨hcount, hrange⟩ := wdec_wellFormed hok
  exact ⟨_, hok, hcount, fun d hd => wdec_getElem? hok hd, hrange, wdec_and_weeklyMask P⟩

/-- Settles O38: the length check comes before the range check, and the shifted slots of an operand that passes both
share no bit, so their OR is their weighted sum. -/
theorem wencPacksSevenDays : Obligations.WencPacksSevenDays := by
  unfold Obligations.WencPacksSevenDays
  refine ⟨fun len h => decode_of_fields (i := .wenc len) h, fun opnd =>
    ⟨wenc_shape, fun hlen hout => wenc_range hlen (all_inRange_eq_false hout), ?_⟩⟩
  rintro s₀ s₁ s₂ s₃ s₄ s₅ s₆ rfl hin
  have hwf : WellFormedSlots 7 [(s₀ : Int), s₁, s₂, s₃, s₄, s₅, s₆] := ⟨rfl, hin⟩
  have hslot : ∀ d < 7, slotAt [(s₀ : Int), s₁, s₂, s₃, s₄, s₅, s₆] d ≤ 3 := fun d _ => slotAt_le hwf d
  refine ⟨_, wenc_of_wellFormed hwf, packWeekly_eq_or _, ?_, Nat.le_of_lt_succ (packWeekly_lt hslot)⟩
  rw [packWeekly_eq_sum hslot]
  simp [Finset.sum_range_succ, slotAt]

end Tx

/-- The result word of `WENC` is the fourteen packed bits, zero extended (R77). -/
theorem weekWord_bits_toNat (elem : Lanes) : (weekWord elem).bits.toNat = (packWeek elem).toNat := by
  rw [weekWord_bits, weeklyWord_toNat wWord_ge]

/-- Settles O10: the answer at every length is the list of the 7 slots, which are those of the whole word. -/
theorem wdecAnswersTheSlots : Obligations.WdecAnswersTheSlots := by
  unfold Obligations.WdecAnswersTheSlots
  intro len s
  refine ⟨_, exec_of_answerOf rfl, weeklySlots_length _, fun d hd => ?_⟩
  rw [← weeklySlots_bits, weeklySlots_getElem? _ hd]

/-- Settles O11: in-range lanes pass both checks, and the answer is the word of the seven packed slots. -/
theorem wencAnswersTheWord : Obligations.WencAnswersTheWord := by
  unfold Obligations.WencAnswersTheWord
  intro s h
  refine ⟨_, exec_of_answerOf (wencResponse_ok h), ?_, (weekWord_bits_toNat _).trans_lt (packWeek _).isLt⟩
  rw [weekWord_bits_toNat, packWeek_eq_sum h]
  simp [Finset.sum_range_succ]

/-- Settles O13: one lane out of range fails the range check of the whole operand. -/
theorem wencAnswersRangeError : Obligations.WencAnswersRangeError := by
  unfold Obligations.WencAnswersRangeError
  intro s h
  exact exec_of_answerOf (wencResponse_range h)

/-- Settles O12: the length check fails before any element is examined (R100). -/
theorem wencAnswersShapeError : Obligations.WencAnswersShapeError := by
  unfold Obligations.WencAnswersShapeError
  intro len s h
  exact exec_of_answerOf (wencResponse_shape h s.cmd.elem)

end Sys2Proof.Machine
end

section
/-! PROOF. An integer of two-bit fields: its fields are the values packed into it, and it is packed from its fields
(R48, R49, R86). The bytes of `DENC` and the word of `WENC` are both of this kind. -/

namespace Sys2Proof.Machine.Tx

open Sys2Proof

theorem testBit_fieldAt (v off i : Nat) : (fieldAt v off).testBit i = (decide (i < 2) && v.testBit (off + i)) := by
  rw [fieldAt_eq, ← Nat.testBit_shiftRight]
  exact Nat.testBit_mod_two_pow _ 2 i

/-- Two integers agree in every bit outside the field at `2d` exactly when their other fields are equal. -/
theorem testBit_eq_outside_field_iff {v w d : Nat} :
    (∀ n, n ≠ 2 * d → n ≠ 2 * d + 1 → v.testBit n = w.testBit n)
      ↔ ∀ e, e ≠ d → fieldAt v (2 * e) = fieldAt w (2 * e) := by
  constructor
  · intro h e he
    refine Nat.eq_of_testBit_eq fun i => ?_
    rw [testBit_fieldAt, testBit_fieldAt]
    by_cases hi : i < 2
    · rw [h (2 * e + i) (by omega) (by omega)]
    · simp [hi]
  · intro h n h0 h1
    have hbit : ∀ u : Nat, u.testBit n = (fieldAt u (2 * (n / 2))).testBit (n % 2) := fun u => by
      rw [testBit_fieldAt, Nat.div_add_mod, decide_eq_true (Nat.mod_lt n (by decide)), Bool.true_and]
    rw [hbit v, hbit w, h (n / 2) (by omega)]

/-- The integer whose field `d` holds `f d`, for `d` below `n`. -/
def packFields (n : Nat) (f : Nat → Nat) : Nat :=
  ∑ d ∈ Finset.range n, 2 ^ (2 * d) * f d

theorem packFields_congr {n : Nat} {f g : Nat → Nat} (h : ∀ d < n, f d = g d) : packFields n f = packFields n g :=
  Finset.sum_congr rfl fun d hd => by rw [h d (Finset.mem_range.1 hd)]

/-- The lowest field and, one field higher, the others. -/
theorem packFields_succ (n : Nat) (f : Nat → Nat) :
    packFields (n + 1) f = f 0 + 4 * packFields n fun d => f (d + 1) := by
  rw [packFields, Finset.sum_range_succ', packFields, Finset.mul_sum, Nat.add_comm]
  congr 1
  · simp
  · exact Finset.sum_congr rfl fun d _ => by rw [Nat.mul_succ, Nat.pow_add]; ring

theorem packFields_eq_sum_shiftLeft (n : Nat) (f : Nat → Nat) :
    packFields n f = ((List.range n).map fun d => f d <<< (2 * d)).sum := by
  simp only [Nat.shiftLeft_eq, Nat.mul_comm (f _)]
  rfl

/-- Values in [0,3] do not reach each other's fields, and no field above the last is set. -/
theorem fieldAt_packFields {n : Nat} {f : Nat → Nat} (hf : ∀ d < n, f d ≤ 3) (d : Nat) :
    fieldAt (packFields n f) (2 * d) = if d < n then f d else 0 := by
  induction n generalizing f d with
  | zero => simp [packFields, fieldAt]
  | succ n ih =>
    have h0 : f 0 ≤ 3 := hf 0 (by omega)
    have hshift : packFields (n + 1) f >>> 2 = packFields n fun d => f (d + 1) := by
      rw [packFields_succ, Nat.shiftRight_eq_div_pow]
      omega
    cases d with
    | zero =>
      rw [packFields_succ, fieldAt_eq, Nat.mul_zero, Nat.shiftRight_zero, if_pos (by omega)]
      omega
    | succ d =>
      have hoffset : 2 * (d + 1) = 2 + 2 * d := by omega
      rw [hoffset, fieldAt, Nat.shiftRight_add, hshift, ← fieldAt, ih fun d hd => hf (d + 1) (by omega)]
      simp only [Nat.add_lt_add_iff_right]

/-- The fields of an integer below bit `2n` are its low `2n` bits. -/
theorem packFields_fieldAt (v n : Nat) : packFields n (fun d => fieldAt v (2 * d)) = v % 2 ^ (2 * n) := by
  induction n with
  | zero => simp [packFields, Nat.mod_one]
  | succ n ih =>
    rw [packFields, Finset.sum_range_succ, ← packFields, ih, fieldAt_eq, Nat.shiftRight_eq_div_pow, Nat.pow_mul,
      Nat.pow_mul]
    exact Nat.mod_pow_succ.symm

theorem packWeekly_eq_packFields {s : List Int} (h : WellFormedSlots 7 s) : packWeekly s = packFields 7 (slotAt s) :=
  packWeekly_eq_sum fun d _ => slotAt_le h d

theorem packDaily_byte_eq_packFields {s : List Int} (h : WellFormedSlots 48 s) {i : Nat} (hi : i < 12) :
    ∃ b, (packDaily s)[i]? = some b ∧ b.toNat = packFields 4 fun j => slotAt s (4 * i + j) := by
  obtain ⟨b, hb, -, hsum⟩ := packDaily_getElem? h hi
  refine ⟨b, hb, hsum.trans ?_⟩
  simp [packFields, Finset.sum_range_succ]

/-- Field `d` of the word of a schedule is its slot `d`, and 0 where there is no day `d` (R70, R74). -/
theorem fieldAt_packWeekly {s : List Int} (h : WellFormedSlots 7 s) (d : Nat) :
    fieldAt (packWeekly s) (2 * d) = if d < 7 then slotAt s d else 0 := by
  rw [packWeekly_eq_packFields h, fieldAt_packFields fun d _ => slotAt_le h d]

/-- Field `j` of byte `i` of a packed schedule is its slot `4i+j` (R45, R64). -/
theorem fieldAt_packDaily {s : List Int} (h : WellFormedSlots 48 s) {i : Nat} (hi : i < 12) {b : Byte}
    (hb : (packDaily s)[i]? = some b) (j : Nat) :
    fieldAt b.toNat (2 * j) = if j < 4 then slotAt s (4 * i + j) else 0 := by
  obtain ⟨b', hb', hfields⟩ := packDaily_byte_eq_packFields h hi
  obtain rfl : b = b' := Option.some.inj (hb.symm.trans hb')
  rw [hfields, fieldAt_packFields fun j _ => slotAt_le h (4 * i + j)]

/-- A slot shifted into a lower field stays below a higher one. -/
theorem shiftLeft_lt_field {a d e : Nat} (ha : a ≤ 3) (hde : d < e) : a <<< (2 * d) < 2 ^ (2 * e) := by
  have hpow : 2 ^ (2 * d) * 4 ≤ 2 ^ (2 * e) := by
    rw [← Nat.pow_add 2 (2 * d) 2]
    exact Nat.pow_le_pow_right (by decide) (by omega)
  have hle : a * 2 ^ (2 * d) ≤ 3 * 2 ^ (2 * d) := Nat.mul_le_mul_right _ ha
  have hpos : 0 < 2 ^ (2 * d) := Nat.two_pow_pos _
  rw [Nat.shiftLeft_eq]
  omega

/-- A term shifted above another shares no bit with it. -/
theorem and_shiftLeft_eq_zero {x k : Nat} (b : Nat) (h : x < 2 ^ k) : x &&& b <<< k = 0 := by
  refine Nat.eq_of_testBit_eq fun i => ?_
  rw [Nat.testBit_and, Nat.testBit_shiftLeft, Nat.zero_testBit]
  by_cases hi : k ≤ i
  · rw [Nat.testBit_lt_two_pow (h.trans_le (Nat.pow_le_pow_right (by decide) hi)), Bool.false_and]
  · simp [hi]

theorem and_or_shifted_slots {a d e : Nat} (b : Nat) (ha : a ≤ 3) (hde : d < e) :
    a <<< (2 * d) &&& b <<< (2 * e) = 0 ∧ (a <<< (2 * d) ||| b <<< (2 * e)) = a <<< (2 * d) + b <<< (2 * e) := by
  have hlt := shiftLeft_lt_field ha hde
  refine ⟨and_shiftLeft_eq_zero b hlt, ?_⟩
  rw [or_shiftLeft b hlt, Nat.shiftLeft_eq b, Nat.mul_comm b]

/-- Settles O45: of two fields one lies wholly above the other; a packed byte and a packed word are sums of
fields. -/
theorem orEqualsSumOnFields : Obligations.OrEqualsSumOnFields := by
  unfold Obligations.OrEqualsSumOnFields
  refine ⟨fun a b d e ha hb hde => ?_, fun s h i hi => ?_, fun s h => ?_⟩
  · rcases Nat.lt_or_gt_of_ne hde with hlt | hgt
    · exact and_or_shifted_slots b ha hlt
    · rw [Nat.and_comm, Nat.or_comm, Nat.add_comm]
      exact and_or_shifted_slots a hb hgt
  · obtain ⟨b, hb, hfields⟩ := packDaily_byte_eq_packFields h hi
    exact ⟨b, hb, hfields.trans (packFields_eq_sum_shiftLeft 4 _)⟩
  · exact (packWeekly_eq_packFields h).trans (packFields_eq_sum_shiftLeft 7 _)

/-- Settles O46: the mask is 3, and every decoded slot is a masked field. -/
theorem decodedSlotsAreInRange : Obligations.DecodedSlotsAreInRange := by
  unfold Obligations.DecodedSlotsAreInRange
  exact ⟨fieldAt_le, fun b s h => (ddec_wellFormed h).2, fun P s h => (wdec_wellFormed h).2⟩

end Sys2Proof.Machine.Tx
end

section
/-! PROOF. The outcome table (R95), the round trips (R80 to R83) and what follows from them (R89, R90). -/

namespace Sys2Proof.Machine.Tx

open Sys2Proof

/-- The rows of an encode operation over `n` slots in the outcome table (R95). -/
theorem encodeOperand_cases (n : Nat) (s : List Int) :
    s.length ≠ n ∨ (s.length = n ∧ ∃ v ∈ s, ¬(0 ≤ v ∧ v ≤ 3)) ∨ WellFormedSlots n s := by
  by_cases hlen : s.length = n
  · by_cases hin : ∀ v ∈ s, 0 ≤ v ∧ v ≤ 3
    · exact .inr (.inr ⟨hlen, hin⟩)
    · exact .inr (.inl ⟨hlen, by simpa only [not_forall, exists_prop] using hin⟩)
  · exact .inl hlen

theorem all_inRange_eq_false_of_not {s : List Int} (h : ∃ v ∈ s, ¬(0 ≤ v ∧ v ≤ 3)) : s.all inRange = false := by
  obtain ⟨v, hv, hout⟩ := h
  exact all_inRange_eq_false ⟨v, hv, by omega⟩

/-- The packed word of a schedule is at most `0x3FFF` (R77). -/
theorem packWeekly_lt_of_wellFormed {s : List Int} (h : WellFormedSlots 7 s) : packWeekly s < 2 ^ 14 :=
  packWeekly_lt fun d _ => slotAt_le h d

theorem outcome_of_ddec {b : List Byte} {r : Result (List Int)} (h : ddec b = r) :
    outcome (.ddec b) = r.map .slots := by
  rw [outcome, h]

theorem outcome_of_denc {s : List Int} {r : Result (List Byte)} (h : denc s = r) :
    outcome (.denc s) = r.map .bytes := by
  rw [outcome, h]

theorem outcome_of_wenc {s : List Int} {r : Result Nat} (h : wenc s = r) : outcome (.wenc s) = r.map .word := by
  rw [outcome, h]

/-- Settles O39: the rows are decided by the length, then by the range. -/
theorem outcomeTableIsTotal : Obligations.OutcomeTableIsTotal := by
  unfold Obligations.OutcomeTableIsTotal
  refine ⟨fun b => ?_, fun s => ?_, fun P => ⟨_, rfl, wdec_wellFormed rfl⟩, fun s => ?_⟩
  · by_cases hlen : b.length = 12
    · have hok := ddec_of_length hlen
      exact .inr ⟨hlen, _, outcome_of_ddec hok, ddec_wellFormed hok⟩
    · exact .inl ⟨hlen, outcome_of_ddec (ddec_shape hlen)⟩
  · rcases encodeOperand_cases 48 s with hlen | ⟨hlen, hout⟩ | hwf
    · exact .inl ⟨hlen, outcome_of_denc (denc_shape hlen)⟩
    · have herr := denc_range hlen (all_inRange_eq_false_of_not hout)
      exact .inr (.inl ⟨hlen, hout, outcome_of_denc herr⟩)
    · exact .inr (.inr ⟨hwf, _, outcome_of_denc (denc_of_wellFormed hwf), packDaily_length s⟩)
  · rcases encodeOperand_cases 7 s with hlen | ⟨hlen, hout⟩ | hwf
    · exact .inl ⟨hlen, outcome_of_wenc (wenc_shape hlen)⟩
    · have herr := wenc_range hlen (all_inRange_eq_false_of_not hout)
      exact .inr (.inl ⟨hlen, hout, outcome_of_wenc herr⟩)
    · exact .inr (.inr ⟨hwf, _, outcome_of_wenc (wenc_of_wellFormed hwf),
        Nat.le_of_lt_succ (packWeekly_lt_of_wellFormed hwf)⟩)

/-- Two sequences decoded from one packed form are equal. -/
theorem eq_of_decoded {α β : Type} {decoder : α → Result β} {p q : α} {s t : β} (hs : decoder p = .ok s)
    (ht : decoder q = .ok t) (h : Result.ok p = .ok q) : s = t := by
  obtain rfl := Result.ok.inj h
  exact Result.ok.inj (hs.symm.trans ht)

/-! Daily. -/

theorem slotAt_ddec {b : List Byte} {s : List Int} (h : ddec b = .ok s) (hb : b.length = 12) {i j : Nat} (hi : i < 12)
    (hj : j < 4) : ∃ x, b[i]? = some x ∧ slotAt s (4 * i + j) = fieldAt x.toNat (2 * j) := by
  obtain ⟨x, hx, hslot⟩ := ddec_getElem? h hb hi hj
  exact ⟨x, hx, slotAt_of_getElem? hslot⟩

/-- Decoding the bytes of a schedule gives it back, field by field (R80). -/
theorem ddec_packDaily {s : List Int} (h : WellFormedSlots 48 s) : ddec (packDaily s) = .ok s := by
  have hok := ddec_of_length (packDaily_length s)
  refine hok.trans (congrArg Result.ok (ext_slotAt (ddec_wellFormed hok) h fun k hk => ?_))
  have hj : k % 4 < 4 := Nat.mod_lt k (by decide)
  have hi : k / 4 < 12 := by omega
  obtain ⟨x, hx, hslot⟩ := slotAt_ddec hok (packDaily_length s) hi hj
  rw [fieldAt_packDaily h hi hx, if_pos hj, Nat.div_add_mod] at hslot
  exact hslot

/-- Packing the slots of twelve bytes gives the bytes back: a byte is packed from its four fields (R81). -/
theorem packDaily_of_ddec {b : List Byte} {s : List Int} (h : ddec b = .ok s) (hb : b.length = 12) :
    packDaily s = b := by
  apply List.ext_getElem?
  intro i
  by_cases hi : i < 12
  · obtain ⟨y, hy, hbyte⟩ := packDaily_byte_eq_packFields (ddec_wellFormed h) hi
    obtain ⟨x, hx, -⟩ := slotAt_ddec h hb hi (j := 0) (by decide)
    have hfields : ∀ j < 4, slotAt s (4 * i + j) = fieldAt x.toNat (2 * j) := fun j hj => by
      obtain ⟨x', hx', hslot⟩ := slotAt_ddec h hb hi hj
      obtain rfl : x = x' := Option.some.inj (hx.symm.trans hx')
      exact hslot
    rw [packFields_congr hfields, packFields_fieldAt, Nat.mod_eq_of_lt x.isLt] at hbyte
    rw [hy, hx, BitVec.eq_of_toNat_eq hbyte]
  · rw [List.getElem?_eq_none (by simp; omega), List.getElem?_eq_none (by omega)]

theorem denc_of_ddec {b : List Byte} {s : List Int} (h : ddec b = .ok s) (hb : b.length = 12) : denc s = .ok b := by
  rw [denc_of_wellFormed (ddec_wellFormed h), packDaily_of_ddec h hb]

/-- Settles O40: field `j` of byte `i` is slot `4i+j`. -/
theorem dailySlotsRoundTrip : Obligations.DailySlotsRoundTrip := by
  unfold Obligations.DailySlotsRoundTrip
  exact fun s h => ⟨_, denc_of_wellFormed h, ddec_packDaily h⟩

/-- Settles O41: each byte is packed from its own four fields. -/
theorem dailyBytesRoundTrip : Obligations.DailyBytesRoundTrip := by
  unfold Obligations.DailyBytesRoundTrip
  intro b hb
  have hok := ddec_of_length hb
  exact ⟨_, hok, ddec_wellFormed hok, denc_of_ddec hok hb⟩

/-- Settles O48: a function with an inverse on either side (R80, R81). -/
theorem dailyEncodingIsABijection : Obligations.DailyEncodingIsABijection := by
  unfold Obligations.DailyEncodingIsABijection
  refine ⟨fun s₁ s₂ h₁ h₂ heq => ?_, fun b hb => ?_⟩
  · rw [denc_of_wellFormed h₁, denc_of_wellFormed h₂] at heq
    exact eq_of_decoded (ddec_packDaily h₁) (ddec_packDaily h₂) heq
  · obtain ⟨s, hdec, hwf, henc⟩ := dailyBytesRoundTrip b hb
    exact ⟨s, hwf, henc, hdec⟩

/-! Weekly. -/

theorem slotAt_wdec {P : Nat} {s : List Int} (h : wdec P = .ok s) {d : Nat} (hd : d < 7) :
    slotAt s d = fieldAt P (2 * d) :=
  slotAt_of_getElem? (wdec_getElem? h hd)

/-- Decoding the word of a schedule gives it back, field by field (R82). -/
theorem wdec_packWeekly {s : List Int} (h : WellFormedSlots 7 s) : wdec (packWeekly s) = .ok s :=
  congrArg Result.ok (ext_slotAt (wdec_wellFormed rfl) h fun d hd => by
    rw [slotAt_wdec rfl hd, fieldAt_packWeekly h, if_pos hd])

/-- Packing the slots of a word gives its low fourteen bits: they are packed from its seven fields (R83). -/
theorem packWeekly_of_wdec {P : Nat} {s : List Int} (h : wdec P = .ok s) : packWeekly s = P % 2 ^ 14 := by
  rw [packWeekly_eq_packFields (wdec_wellFormed h), packFields_congr fun d hd => slotAt_wdec h hd, packFields_fieldAt]

theorem wenc_of_wdec {P : Nat} {s : List Int} (h : wdec P = .ok s) : wenc s = .ok (P % 2 ^ 14) := by
  rw [wenc_of_wellFormed (wdec_wellFormed h), packWeekly_of_wdec h]

/-- The words that decode to a schedule are those whose low fourteen bits are its packed form (R90). -/
theorem wdec_eq_ok_iff {s : List Int} (h : WellFormedSlots 7 s) (P : Nat) :
    wdec P = .ok s ↔ P % 2 ^ 14 = packWeekly s := by
  constructor
  · exact fun hdec => (packWeekly_of_wdec hdec).symm
  · intro hP
    rw [← wdec_and_weeklyMask, Nat.and_two_pow_sub_one_eq_mod P 14, hP, wdec_packWeekly h]

/-- Of the numbers of `w` bits, `2^(w-14)` have given low fourteen bits. -/
theorem card_mod_eq {w r : Nat} (hw : 14 ≤ w) (hr : r < 2 ^ 14) :
    ((Finset.range (2 ^ w)).filter fun P => P % 2 ^ 14 = r).card = 2 ^ (w - 14) := by
  have hcount := Nat.count_modEq_card (2 ^ w) (Nat.two_pow_pos 14) r
  rw [Nat.mod_eq_zero_of_dvd (Nat.pow_dvd_pow 2 hw), if_neg (Nat.not_lt_zero _), Nat.pow_div hw (by decide), Nat.add_zero,
    Nat.count_eq_card_filter_range] at hcount
  simpa only [Nat.ModEq, Nat.mod_eq_of_lt hr] using hcount

/-- Settles O42: field `d` of the word is slot `d`. -/
theorem weeklySlotsRoundTrip : Obligations.WeeklySlotsRoundTrip := by
  unfold Obligations.WeeklySlotsRoundTrip
  exact fun s h => ⟨_, wenc_of_wellFormed h, Nat.le_of_lt_succ (packWeekly_lt_of_wellFormed h), wdec_packWeekly h⟩

/-- Settles O43: the low fourteen bits are packed from the seven fields, and the mask keeps just these. -/
theorem weeklyWordRoundTrip : Obligations.WeeklyWordRoundTrip := by
  unfold Obligations.WeeklyWordRoundTrip
  intro P
  have hok : wdec P = .ok _ := rfl
  refine ⟨_, hok, ?_, fun hP => ?_⟩
  · rw [wenc_of_wdec hok, Nat.and_two_pow_sub_one_eq_mod P 14]
  · have hlt : P < 2 ^ 14 := Nat.lt_succ_of_le hP
    rw [wenc_of_wdec hok, Nat.mod_eq_of_lt hlt]

/-- Settles O49: an inverse on either side (R82, R83), and a count of the words with given low fourteen bits. -/
theorem weeklyEncodingIsABijection : Obligations.WeeklyEncodingIsABijection := by
  unfold Obligations.WeeklyEncodingIsABijection
  refine ⟨fun s₁ s₂ h₁ h₂ heq => ?_, fun P hP => ?_, fun w s hw h => ?_⟩
  · rw [wenc_of_wellFormed h₁, wenc_of_wellFormed h₂] at heq
    exact eq_of_decoded (wdec_packWeekly h₁) (wdec_packWeekly h₂) heq
  · obtain ⟨s, hdec, -, henc⟩ := weeklyWordRoundTrip P
    exact ⟨s, wdec_wellFormed hdec, henc hP, hdec⟩
  · simp only [wdec_eq_ok_iff h]
    exact card_mod_eq hw (packWeekly_lt_of_wellFormed h)

/-- Settles O47: eight fixed operands, each evaluated. -/
theorem boundaryValues : Obligations.BoundaryValues := by
  unfold Obligations.BoundaryValues
  decide

end Sys2Proof.Machine.Tx
end

section
/-! PROOF. Lane independence (R84): to agree outside a field is to have the other fields equal, and the fields are the
slots. -/

namespace Sys2Proof.Machine.Tx

open Sys2Proof

theorem denc_lanes_independent {s₁ s₂ : List Int} {k : Nat} {b₁ b₂ : List Byte} (h₁ : WellFormedSlots 48 s₁)
    (h₂ : WellFormedSlots 48 s₂) (h : ∀ j, j ≠ k → s₁[j]? = s₂[j]?) (hb₁ : denc s₁ = .ok b₁) (hb₂ : denc s₂ = .ok b₂) :
    (∀ i, i ≠ k / 4 → b₁[i]? = b₂[i]?)
    ∧ ∀ x₁ x₂, b₁[k / 4]? = some x₁ → b₂[k / 4]? = some x₂ →
        ∀ n, n ≠ 2 * (k % 4) → n ≠ 2 * (k % 4) + 1 → x₁.getLsbD n = x₂.getLsbD n := by
  obtain rfl := Result.ok.inj ((denc_of_wellFormed h₁).symm.trans hb₁)
  obtain rfl := Result.ok.inj ((denc_of_wellFormed h₂).symm.trans hb₂)
  refine ⟨fun i hik => ?_, fun x₁ x₂ hx₁ hx₂ => ?_⟩
  · have hslot : ∀ j < 4, slotAt s₁ (4 * i + j) = slotAt s₂ (4 * i + j) := fun j hj => slotAt_congr (h _ (by omega))
    by_cases hi : i < 12
    · obtain ⟨x₁, hx₁, hp₁⟩ := packDaily_byte_eq_packFields h₁ hi
      obtain ⟨x₂, hx₂, hp₂⟩ := packDaily_byte_eq_packFields h₂ hi
      rw [hx₁, hx₂, BitVec.eq_of_toNat_eq (hp₁.trans ((packFields_congr hslot).trans hp₂.symm))]
    · rw [List.getElem?_eq_none (by simp; omega), List.getElem?_eq_none (by simp; omega)]
  · have hi : k / 4 < 12 := by
      rw [← packDaily_length s₁]
      exact (List.getElem?_eq_some_iff.1 hx₁).1
    simp only [← BitVec.testBit_toNat]
    refine testBit_eq_outside_field_iff.2 fun e he => ?_
    rw [fieldAt_packDaily h₁ hi hx₁, fieldAt_packDaily h₂ hi hx₂]
    split
    · rw [slotAt_congr (h _ (by omega))]
    · rfl

theorem ddec_lanes_independent {b₁ b₂ : List Byte} {k : Nat} {s₁ s₂ : List Int} (hlen₁ : b₁.length = 12)
    (hlen₂ : b₂.length = 12) (h : ∀ i, i ≠ k / 4 → b₁[i]? = b₂[i]?)
    (hk : ∀ x₁ x₂, b₁[k / 4]? = some x₁ → b₂[k / 4]? = some x₂ →
      ∀ n, n ≠ 2 * (k % 4) → n ≠ 2 * (k % 4) + 1 → x₁.getLsbD n = x₂.getLsbD n)
    (hs₁ : ddec b₁ = .ok s₁) (hs₂ : ddec b₂ = .ok s₂) {j : Nat} (hj : j ≠ k) : s₁[j]? = s₂[j]? := by
  by_cases hj48 : j < 48
  · have hi : j / 4 < 12 := by omega
    obtain ⟨x₁, hx₁, hslot₁⟩ := ddec_getElem? hs₁ hlen₁ hi (Nat.mod_lt j (by decide))
    obtain ⟨x₂, hx₂, hslot₂⟩ := ddec_getElem? hs₂ hlen₂ hi (Nat.mod_lt j (by decide))
    rw [Nat.div_add_mod] at hslot₁ hslot₂
    rw [hslot₁, hslot₂]
    by_cases hik : j / 4 = k / 4
    · have hfields := hk x₁ x₂ (hik ▸ hx₁) (hik ▸ hx₂)
      simp only [← BitVec.testBit_toNat] at hfields
      rw [testBit_eq_outside_field_iff.1 hfields (j % 4) (by omega)]
    · obtain rfl : x₁ = x₂ := Option.some.inj (hx₁.symm.trans ((h _ hik).trans hx₂))
      rfl
  · rw [List.getElem?_eq_none (by rw [(ddec_wellFormed hs₁).1]; omega),
      List.getElem?_eq_none (by rw [(ddec_wellFormed hs₂).1]; omega)]

theorem wenc_lanes_independent {s₁ s₂ : List Int} {d P₁ P₂ : Nat} (h₁ : WellFormedSlots 7 s₁)
    (h₂ : WellFormedSlots 7 s₂) (h : ∀ j, j ≠ d → s₁[j]? = s₂[j]?) (hP₁ : wenc s₁ = .ok P₁) (hP₂ : wenc s₂ = .ok P₂) :
    ∀ n, n ≠ 2 * d → n ≠ 2 * d + 1 → P₁.testBit n = P₂.testBit n := by
  obtain rfl := Result.ok.inj ((wenc_of_wellFormed h₁).symm.trans hP₁)
  obtain rfl := Result.ok.inj ((wenc_of_wellFormed h₂).symm.trans hP₂)
  refine testBit_eq_outside_field_iff.2 fun e he => ?_
  rw [fieldAt_packWeekly h₁, fieldAt_packWeekly h₂, slotAt_congr (h e he)]

theorem wdec_lanes_independent {P₁ P₂ d : Nat} {s₁ s₂ : List Int}
    (h : ∀ n, n ≠ 2 * d → n ≠ 2 * d + 1 → P₁.testBit n = P₂.testBit n) (hs₁ : wdec P₁ = .ok s₁)
    (hs₂ : wdec P₂ = .ok s₂) {j : Nat} (hj : j ≠ d) : s₁[j]? = s₂[j]? := by
  by_cases hj7 : j < 7
  · rw [wdec_getElem? hs₁ hj7, wdec_getElem? hs₂ hj7, testBit_eq_outside_field_iff.1 h j hj]
  · rw [List.getElem?_eq_none (by rw [(wdec_wellFormed hs₁).1]; omega),
      List.getElem?_eq_none (by rw [(wdec_wellFormed hs₂).1]; omega)]

/-- Settles O44: each slot is one field, both ways; the range check alone reads every element. -/
theorem lanesAreIndependent : Obligations.LanesAreIndependent := by
  unfold Obligations.LanesAreIndependent
  refine ⟨fun _ _ _ _ _ => denc_lanes_independent, fun _ _ _ _ _ hlen₁ hlen₂ h hk hs₁ hs₂ _ =>
    ddec_lanes_independent hlen₁ hlen₂ h hk hs₁ hs₂, fun _ _ _ _ _ => wenc_lanes_independent,
    fun _ _ _ _ _ h hs₁ hs₂ _ => wdec_lanes_independent h hs₁ hs₂, fun s k v hv hout => ?_⟩
  have hbad := all_inRange_eq_false ⟨v, List.mem_of_getElem? hv, hout⟩
  exact ⟨fun hlen => denc_range hlen hbad, fun hlen => wenc_range hlen hbad⟩

end Sys2Proof.Machine.Tx
end

section
/-! PROOF. The round trips at the ports (R55, R81, R83): a decode result on the lanes presents the decoded schedule, and
the ports carry the outcomes of the transaction view. -/

namespace Sys2Proof.Machine

open Sys2Proof

/-- An instruction adds to the commands in flight the outcome of the command that the ports stand for (R24). -/
theorem exec_of_presents {i : Instr} {s : State} {c : Tx.Command} (h : Presents i s.cmd.elem s.cmd.word c) :
    ∃ t, exec i s = .next t ∧ t.pending = s.pending ++ [
      { instr := i, elem := s.cmd.elem, word := s.cmd.word, rsp := responseOf (Tx.outcome c) }] :=
  ⟨_, exec_of_answerOf (answerOf_eq_responseOf h), rfl⟩

/-- A slot on a result element stands for itself (R53, R55). -/
theorem standsFor_ofInt {v : Int} (h : 0 ≤ v ∧ v ≤ 3) : StandsFor (BitVec.ofInt 8 v) v := by
  left
  rw [BitVec.toNat_ofInt]
  omega

/-- Lanes that carry the slots of a decode result present the decoded schedule (R55). -/
theorem lanesPresent_of_wellFormed {n : Nat} {elem : Lanes} {slots : List Int} (hwf : Tx.WellFormedSlots n slots)
    (h : ∀ k < n, (slots.map (BitVec.ofInt 8))[k]? = some (lane elem k)) : LanesPresent n elem slots := by
  refine ⟨hwf.1, fun k hk => ?_⟩
  have hlane := h k (lt_min_iff.1 hk).1
  rw [List.getElem?_map] at hlane
  obtain ⟨v, hv, hbyte⟩ := Option.map_eq_some_iff.1 hlane
  exact ⟨v, hv, hbyte ▸ standsFor_ofInt (hwf.2 v (List.mem_of_getElem? hv))⟩

/-- The first twelve lanes are the operand of a `DDEC` of length 12 (R22). -/
theorem presents_ddec_take (elem : Lanes) (word : Word) : Presents (.ddec 12) elem word (.ddec (elem.toList.take 12)) :=
  ⟨by simp, fun j hj => by
    have hj12 : j < 12 := (lt_min_iff.1 hj).1
    rw [List.getElem?_take_of_lt hj12, lane_getElem? elem (by omega)]⟩

/-- Settles O20: the round trip of R81, carried to the ports on both ways. -/
theorem dailyRoundTripAtThePorts : Obligations.DailyRoundTripAtThePorts := by
  unfold Obligations.DailyRoundTripAtThePorts
  intro s
  obtain ⟨slots, hdec, hwf, henc⟩ := Tx.dailyBytesRoundTrip (s.cmd.elem.toList.take 12) (by simp)
  have hddec := exec_of_presents (presents_ddec_take s.cmd.elem s.cmd.word)
  rw [Tx.outcome_of_ddec hdec] at hddec
  refine ⟨_, hddec, fun s' hlanes => ?_⟩
  have hdenc := exec_of_presents (s := s') (presents_denc_iff.2 (lanesPresent_of_wellFormed hwf hlanes))
  rw [Tx.outcome_of_denc henc] at hdenc
  exact hdenc

/-- The word that carries the low fourteen bits of another is that word masked (R55, R83). -/
theorem Word.ofNat_masked_bits (w : Word) : (Word.ofNat (w.bits.toNat &&& 0x3FFF)).bits = w.bits &&& 0x3FFF := by
  rw [Word.ofNat_bits]
  apply BitVec.eq_of_toNat_eq
  rw [and_weeklyMask_toNat wWord_ge, BitVec.toNat_ofNat, Nat.and_two_pow_sub_one_eq_mod _ 14]
  exact Nat.mod_eq_of_lt ((Nat.mod_le _ _).trans_lt w.bits.isLt)

/-- Settles O21: the round trip of R83, carried to the ports on both ways. -/
theorem weeklyRoundTripAtThePorts : Obligations.WeeklyRoundTripAtThePorts := by
  unfold Obligations.WeeklyRoundTripAtThePorts
  intro len s
  obtain ⟨slots, hdec, henc, -⟩ := Tx.weeklyWordRoundTrip s.cmd.word.bits.toNat
  have hwdec := exec_of_presents (i := .wdec len) (s := s) (c := .wdec s.cmd.word.bits.toNat) rfl
  rw [Tx.outcome, hdec] at hwdec
  refine ⟨_, _, Word.ofNat_masked_bits s.cmd.word, hwdec, fun s' hlanes => ?_⟩
  have hwenc := exec_of_presents (s := s')
    (presents_wenc_iff.2 (lanesPresent_of_wellFormed (Tx.wdec_wellFormed hdec) hlanes))
  rw [Tx.outcome_of_wenc henc] at hwenc
  exact hwenc

end Sys2Proof.Machine
end

section
/-! PROOF. Reset and hazards (R115, R120, R123): every edge has a next state and uses up one entry of the timing plan,
a reset edge drops what is in flight, and what a channel does not transfer stays on it. -/

namespace Sys2Proof.Machine

open Sys2Proof

namespace State

@[simp] theorem edge_cmdReady (s : State) : s.edge.cmdReady = !s.hold.cmd := by simp [edge, transfer_hold]

/-- A response that is presented and not taken is presented again, and the host receives nothing (R120). -/
theorem edge_held_response {s : State} {x : Transaction} (hx : s.rsp = some x) (hready : s.rspReady = false) :
    s.edge.rsp = some x ∧ s.edge.received = s.received := by
  have htake : s.takeResponse = s := s.takeResponse_of_not_delivers (by simp [delivers, hready])
  constructor
  · rw [edge, endEdge_rsp]
    exact present_rsp_of_some _ (by rw [transfer_rsp, htake, hx])
  · rw [edge_received, htake]

end State

/-- Every edge, with `rst` or without, answers a next state, and `cmd_ready` there is what the first entry of the timing
plan says (log entries 4 and 15). -/
theorem step_next_follows_holds (s : State) :
    ∃ t, step s = .next t ∧ t.cmdReady = (!s.hold.cmd) ∧ t.holds = s.holds.tail := by
  cases hr : s.rst
  case false => exact ⟨s.edge, step_eq_edge hr, s.edge_cmdReady, s.edge_holds⟩
  case true => exact ⟨s.dropInFlight.endEdge false, step_eq_reset hr, by simp [State.hold], by simp⟩

/-- Settles O23: a step is a reset edge or the edge without `rst`, and both answer a next state (log entry 15). -/
theorem everyStateHasANextState : Obligations.EveryStateHasANextState := by
  unfold Obligations.EveryStateHasANextState
  intro s
  obtain ⟨t, hstep, -⟩ := step_next_follows_holds s
  exact ⟨t, hstep⟩

/-- Settles O24: the drop empties both places a response can be in, and the end of the edge finds none to present and
leaves the command where it is. -/
theorem resetEdgeDropsCommandsInFlight : Obligations.ResetEdgeDropsCommandsInFlight := by
  unfold Obligations.ResetEdgeDropsCommandsInFlight
  intro s hr
  have hfl : (s.dropInFlight.endEdge false).inFlight = [] := by simp
  have hrsp : (s.dropInFlight.endEdge false).rsp = none :=
    Option.toList_eq_nil_iff.1 (List.append_eq_nil_iff.1 hfl).1
  refine ⟨s.dropInFlight.endEdge false, step_eq_reset hr, hfl, ?_, by simp, fun hv => s.dropInFlight.endEdge_held hv⟩
  rw [State.rspValid, hrsp, Option.isSome_none]

/-- Settles O26: with `rsp_ready` at 0 nothing is delivered, and the response ports are occupied. -/
theorem untakenResponseIsHeld : Obligations.UntakenResponseIsHeld := by
  unfold Obligations.UntakenResponseIsHeld
  intro s x hr hx hready
  exact ⟨s.edge, step_eq_edge hr, State.edge_held_response hx hready⟩

/-- Settles O27: with `cmd_ready` at 0 the edge accepts nothing, so it adds no answer and the channel is not free. -/
theorem unacceptedCommandIsHeld : Obligations.UnacceptedCommandIsHeld := by
  unfold Obligations.UnacceptedCommandIsHeld
  intro s hr hv hready
  have ha : s.accepts = false := by simp [State.accepts, hready]
  have hnew : s.newAnswers = [] := by simp [State.newAnswers, ha]
  obtain ⟨hvalid, hcmd, hcmds⟩ := s.transfer.endEdge_held (by simpa using hv)
  have hedge : s.edge = s.transfer.endEdge false := by rw [State.edge, ha]
  refine ⟨s.edge, step_eq_edge hr, ?_, ?_, ?_, ?_⟩
  · rw [hedge, hvalid]
  · rw [hedge, hcmd, State.transfer_cmd]
  · rw [hedge, hcmds, State.transfer_hostCmds]
  · rw [State.edge_record, hnew, List.append_nil]

/-- Settles O33, by induction on the timing plan: each step uses up one entry, and after the last one nothing holds
`cmd_ready` back (log entry 4). -/
theorem commandReadyComes : Obligations.CommandReadyComes := by
  unfold Obligations.CommandReadyComes
  intro s
  induction hplan : s.holds generalizing s with
  | nil =>
    obtain ⟨t, hstep, hready, -⟩ := step_next_follows_holds s
    exact ⟨1, le_rfl, t, run_of_step 0 hstep, by simp [hready, State.hold, hplan]⟩
  | cons c rest ih =>
    obtain ⟨t, hstep, -, hrest⟩ := step_next_follows_holds s
    obtain ⟨n, hn, u, hrun, hready⟩ := ih t (by rw [hrest, hplan, List.tail_cons])
    exact ⟨n + 1, Nat.succ_le_succ hn, u, (run_of_step n hstep).trans hrun, hready⟩

end Sys2Proof.Machine
end
